-- ==== Sys2Proof/Word.lean ====
section
/-! DEFINITION. The widths of 00_scope.md R7 and R8 that are not parameters: byte 8 bits, packed word, accumulator and
result 64 bits, vector register 128 bits, command word 32 bits. -/

namespace Sys2Proof

/-- A byte of the digit buffer (R50). -/
abbrev Byte := BitVec 8

/-- `u64` (R8): a result, an accumulator or a packed word. -/
abbrev Word := BitVec 64

/-- A byte address as the ports carry it. The block's address width is the parameter `AW`, 8 to 64 (R7); a narrower
address stands in the low `AW` bits. -/
abbrev Addr := BitVec 64

/-- The command word `CW` (R80, R81). -/
abbrev CmdWord := BitVec 32

/-- The vector register `VL` (R30). -/
abbrev VecReg := BitVec 128

end Sys2Proof
end

