-- ==== Sys2Proof/Config.lean ====
section
/-! DEFINITION. What an instance of the block fixes (the parameters of 00_scope.md R7) and the free values: constants
with no body, for every value the spec leaves unspecified (93_implementation_defined.md). -/

namespace Sys2Proof

/-- The capability tiers (R21), in order of preference. Value 3 is reserved and never held, so it has no constructor. -/
inductive Tier where
  /-- 0, the bit-trick kernel. -/
  | bittrick
  /-- 1, the vector kernel, baseline dialect. -/
  | vecBase
  /-- 2, the vector kernel, extended dialect. -/
  | vecExt
deriving DecidableEq, Repr, Inhabited

/-- The four parse commands, as the first argument of `UNSPEC` names them (R7, R82). -/
inductive ParseOp where
  | parse4
  | parse8
  | parse16
  | parseN
deriving DecidableEq, Repr, Inhabited

/-- The lane operations that are defined on a stated input range only (R144 to R148). -/
inductive LaneOp where
  | madd1
  | madd2
  | pack
  | madd3
  | fold
deriving DecidableEq, Repr, Inhabited

/-- The numeric parameters of R7. They are a part of State that no step changes, so that every statement about all
states is a statement about all instances (log entry 1). -/
structure Params where
  /-- `AW`, the width of a byte address in bits, 8 to 64. -/
  aw : Nat
  /-- `TIER_MAX`, the highest tier the instance implements. -/
  tierMax : Tier
deriving DecidableEq, Repr

/-- R7: "`AW` integer, 8..64". -/
abbrev Params.wf (p : Params) : Prop := 8 ≤ p.aw ∧ p.aw ≤ 64

/-- The defaults of R7: `AW` = 64 and `TIER_MAX` = 2. -/
def Params.default : Params := ⟨64, .vecExt⟩

/-- `UNSPEC(op, tier, bytes)` (R7, R12): the value of a parse command whose consumed bytes are not all digits, or of
PARSEN with length 0 (U1, U2). It is a function of its arguments alone, and nothing else is known of it. -/
opaque Config.UNSPEC : ParseOp → Tier → List Byte → Word

/-- RESULT after a fault (R236, U7), one value for each draw. -/
opaque Config.resultAfterFault : Nat → Word

/-- The data of a fault's response (R91, R236, U7). -/
opaque Config.responseDataAfterFault : Nat → Word

/-- RESULT after the `rst` input was asserted (R38, R260, U8). -/
opaque Config.resultAfterReset : Nat → Word

/-- ACC outside a command (R27, R38, U15). -/
opaque Config.deadAcc : Nat → Word

/-- POS outside a command (R28, R38, U15). -/
opaque Config.deadPos : Nat → Nat

/-- REM outside a command (R28, R38, U15). -/
opaque Config.deadRem : Nat → BitVec 5

/-- PW0 outside a command (R29, R38, U15). -/
opaque Config.deadPw0 : Nat → Word

/-- PW1 outside a command (R29, R38, U15). -/
opaque Config.deadPw1 : Nat → Word

/-- VL outside a command (R30, R38, U15). -/
opaque Config.deadVl : Nat → VecReg

/-- What a lane operation leaves in one lane when its operands lie outside the stated input range (41_vector_kernel.md
section 2, U9): a function of the operation, the lane and the register it worked on (log entry 6). V.FOLD, which leaves no lane,
takes its whole value from lane number 0. -/
opaque Config.laneUnspec : LaneOp → Nat → VecReg → Nat

/-- The contents of a byte that the directive `.readable` marks readable "without defining their contents" (R89). -/
opaque Config.readableByte : Nat → Byte

/-- `LAT(op, len, tier)` (R7, R270): the latency of the command whose `op` field is the first argument. No rule depends on it and nothing in the model reads it. -/
opaque Config.LAT : BitVec 4 → Nat → Tier → Nat

end Sys2Proof
end

