-- ==== Sys2Proof/Syntax.lean ====
section
/-! DEFINITION. The commands: one constructor for each row of spec/opcode_table.json (30_encoding.md R82). -/

namespace Sys2Proof

/-- A decoded command. `tier` and `len` are the fields of R84 and R83, "used as they stand" (R81); `a` is the address
operand, which is not a part of the command word. SETTIER's address operand "is ignored" (R85), so it has none here. -/
inductive Instr where
  /-- SETTIER tier (R201). -/
  | setTier (tier : BitVec 2)
  /-- PARSE4 A (R202). -/
  | parse4 (a : Addr)
  /-- PARSE8 A (R203). -/
  | parse8 (a : Addr)
  /-- PARSE16 A (R204). -/
  | parse16 (a : Addr)
  /-- PARSEN A, len (R205). -/
  | parseN (a : Addr) (len : BitVec 5)
deriving DecidableEq, Repr, Inhabited

end Sys2Proof
end

