-- ==== Sys2Proof/WellFormed.lean ====
section
/-! DEFINITION. Which commands the encoding of 30_encoding.md makes legal whatever the instance and its state: the
operand conditions (c) and (d) of R86. What depends on TIER_MAX and TIER_LOCK is checked when SETTIER runs. -/

namespace Sys2Proof

/-- R86(d), first half: `tier` = 3 is reserved. -/
def tierOk (t : BitVec 2) : Bool := t != 3#2

/-- R83: "Values 1 to 16 are legal. Value 0 ... is accepted ... Values 17 to 31 are illegal". -/
def lenOk (l : BitVec 5) : Bool := l.toNat ≤ 16

/-- A command that some command word encodes legally. -/
def Instr.wf : Instr → Bool
  | .setTier t => tierOk t
  | .parse4 _ => true
  | .parse8 _ => true
  | .parse16 _ => true
  | .parseN _ l => lenOk l

end Sys2Proof
end

