-- ==== Sys2Proof/Decode.lean ====
section
/-! DEFINITION. Command words: the fields of R81, the total decoder of R86 and R92, and the encoder of R81 and R89. -/

namespace Sys2Proof

/-- Bits 3:0, `op` (R81). -/
def fieldOp (cw : CmdWord) : BitVec 4 := cw.extractLsb' 0 4

/-- Bits 8:4, `len` (R81). -/
def fieldLen (cw : CmdWord) : BitVec 5 := cw.extractLsb' 4 5

/-- Bits 10:9, `tier` (R81). -/
def fieldTier (cw : CmdWord) : BitVec 2 := cw.extractLsb' 9 2

/-- Bits 31:11, `zero` (R81). -/
def fieldZero (cw : CmdWord) : BitVec 21 := cw.extractLsb' 11 21

/-- Why a command word is illegal (R86), one name for each decode check of R92. All raise IllegalCommand. -/
inductive Reject where
  /-- R86(b): a bit of 31:11 is set. -/
  | zeroBitsSet
  /-- R86(a): `op` is 0 or 6 to 15. -/
  | reservedOp
  /-- R86(b): `len` is not zero outside PARSEN. -/
  | lenNotZero
  /-- R86(b): `tier` is not zero outside SETTIER. -/
  | tierNotZero
  /-- R86(c): PARSEN with `len` 17 to 31. -/
  | lenTooLong
  /-- R86(d): SETTIER with the reserved tier 3. -/
  | tierReserved
deriving DecidableEq, Repr

/-- The decode checks of R92 in their order, as far as the command word alone decides them. The two checks of SETTIER
that read TIER_MAX and TIER_LOCK come last there and stand in SETTIER's meaning (log entry 8). -/
def decode (cw : CmdWord) (a : Addr) : Except Reject Instr :=
  if fieldZero cw ≠ 0#21 then .error .zeroBitsSet
  else if fieldOp cw = 0#4 ∨ 6 ≤ (fieldOp cw).toNat then .error .reservedOp
  else if fieldOp cw ≠ 5#4 ∧ fieldLen cw ≠ 0#5 then .error .lenNotZero
  else if fieldOp cw ≠ 1#4 ∧ fieldTier cw ≠ 0#2 then .error .tierNotZero
  else if fieldOp cw = 5#4 ∧ lenOk (fieldLen cw) = false then .error .lenTooLong
  else if fieldOp cw = 1#4 ∧ tierOk (fieldTier cw) = false then .error .tierReserved
  else if fieldOp cw = 1#4 then .ok (.setTier (fieldTier cw))
  else if fieldOp cw = 2#4 then .ok (.parse4 a)
  else if fieldOp cw = 3#4 then .ok (.parse8 a)
  else if fieldOp cw = 4#4 then .ok (.parse16 a)
  else .ok (.parseN a (fieldLen cw))

/-- `CW = zero << 11 | tier << 9 | len << 4 | op` (R81). -/
def commandWord (zero : BitVec 21) (tier : BitVec 2) (len : BitVec 5) (op : BitVec 4) : CmdWord :=
  zero ++ tier ++ len ++ op

/-- `i` is a parse command (R82). -/
def Instr.isParse : Instr → Bool
  | .setTier _ => false
  | .parse4 _ => true
  | .parse8 _ => true
  | .parse16 _ => true
  | .parseN _ _ => true

/-- The `op` of a command (R82). -/
def Instr.op : Instr → BitVec 4
  | .setTier _ => 1#4
  | .parse4 _ => 2#4
  | .parse8 _ => 3#4
  | .parse16 _ => 4#4
  | .parseN _ _ => 5#4

/-- The pair `(CW, A)` of a command (R80, R89): "in each case the address operand is `addr` (0 for SETTIER)". -/
def encode : Instr → CmdWord × Addr
  | .setTier t => (commandWord 0#21 t 0#5 1#4, 0#64)
  | .parse4 a => (commandWord 0#21 0#2 0#5 2#4, a)
  | .parse8 a => (commandWord 0#21 0#2 0#5 3#4, a)
  | .parse16 a => (commandWord 0#21 0#2 0#5 4#4, a)
  | .parseN a l => (commandWord 0#21 0#2 l 5#4, a)

/-- The command whose bits are `w`, numbered as spec/opcode_table.json numbers them: bits 31:0 are the command word and
the address operand, to which the table gives no bits, counts on from bit 32. Bits at or above `nbits` are 0. -/
def tableCommand (nbits w : Nat) : CmdWord × Addr :=
  (BitVec.ofNat 32 (w % 2 ^ nbits), BitVec.ofNat 64 (w % 2 ^ nbits / 2 ^ 32))

/-- What the decoder reads from a word of the opcode table; `none` where it is illegal. -/
def decodeTableWord (nbits w : Nat) : Option Instr :=
  match decode (tableCommand nbits w).1 (tableCommand nbits w).2 with
  | .ok i => some i
  | .error _ => none

/-- The numeric encoding of a tier (R21). -/
def Tier.toBits : Tier → BitVec 2
  | .bittrick => 0#2
  | .vecBase => 1#2
  | .vecExt => 2#2

/-- The tier that a `tier` field names (R84); 3 names none. -/
def Tier.ofBits (b : BitVec 2) : Option Tier :=
  if b = 0#2 then some .bittrick
  else if b = 1#2 then some .vecBase
  else if b = 2#2 then some .vecExt
  else none

/-- The tier as a number, so that "a larger number is a more preferred tier" (R21). -/
def Tier.rank (t : Tier) : Nat := t.toBits.toNat

end Sys2Proof
end

