-- ==== Sys2Proof/Machine/State.lean ====
section
/-! DEFINITION. The whole state of one SATOL-CORE instance (10_state.md R20), with what the spec makes an argument of the
model's step (R20: the buffer memory, the parameters, the command stream) and the responses the block has issued. -/

namespace Sys2Proof.Machine

/-- PHASE (R23). Value 3 is never held. -/
inductive Phase where
  /-- 0, ready for a command. -/
  | idle
  /-- 1, a command is executing. -/
  | busy
  /-- 2, a fault was raised; no further command is accepted. -/
  | fault
deriving DecidableEq, Repr, Inhabited

/-- FCODE (R24). Values 3 to 15 are never held. -/
inductive FCode where
  /-- 0. -/
  | none
  /-- 1. -/
  | bufferFault
  /-- 2. -/
  | illegalCommand
deriving DecidableEq, Repr, Inhabited

/-- The transient registers of R20, meaningful only inside one command. -/
structure Transients where
  /-- ACC, the accumulator (R27). -/
  acc : Word
  /-- POS, the address of the next unconsumed byte (R28), as a natural number: arithmetic on it does not wrap (R32, R58;
  log entry 5). -/
  pos : Nat
  /-- REM, the remaining length (R28). -/
  rem : BitVec 5
  /-- PW0, the first packed word (R29). -/
  pw0 : Word
  /-- PW1, the second packed word (R29). -/
  pw1 : Word
  /-- VL, the vector register (R30). -/
  vl : VecReg
deriving DecidableEq, Repr, Inhabited

/-- A response `(fault, code, data)` (R91). -/
structure Response where
  fault : Bool
  code : BitVec 4
  data : Word
deriving DecidableEq, Repr, Inhabited

/-- What the host does to the block, one entry at a time (R6, R80, R260, R266). -/
inductive HostAction where
  /-- It presents a command `(CW, A)` on the command port (R80). -/
  | present (cw : CmdWord) (a : Addr)
  /-- It asserts the `rst` input (R260). -/
  | reset
  /-- It writes a byte of the memory it owns and lets the block read it (R50, R266). -/
  | store (a : Nat) (b : Byte)
  /-- It takes a byte out of the readable window (R50, R61). -/
  | unmap (a : Nat)
deriving DecidableEq, Repr, Inhabited

/-- The digit-buffer memory (R50): `MEM` and `READABLE` in one list, addresses strictly rising. A listed byte is
readable; an address that is not listed is not readable and has no value (log entry 3). -/
abbrev Mem := List Host.Cell

/-- The machine. -/
structure State where
  /-- TIER (R21). -/
  tier : Tier
  /-- TIER_LOCK (R22). -/
  tierLock : Bool
  /-- PHASE (R23). -/
  phase : Phase
  /-- FCODE (R24). -/
  fcode : FCode
  /-- FADDR, `AW` bits (R25). -/
  faddr : Addr
  /-- RESULT (R26). -/
  result : Word
  /-- ACC, POS, REM, PW0, PW1, VL (R27 to R30). -/
  tr : Transients
  /-- `MEM` and `READABLE` (R50). -/
  mem : Mem
  /-- `AW` and `TIER_MAX` (R7); no step changes them. -/
  par : Params
  /-- What the host will do, the next action first (R32, R80). -/
  host : List HostAction
  /-- The responses issued, the newest first (R91). -/
  responses : List Response
  /-- How many times the machine has drawn free values: the model's own field (log entry 4). -/
  draws : Nat
deriving DecidableEq, Repr

/-- Where a run stops because the spec gives the block no step. -/
inductive Fault where
  /-- Raised by `step` when PHASE = FAULT and the host does not act on the block otherwise than by a command: "From PHASE =
  FAULT the engine has no step: no command is accepted" (R236, U11). Safe: the run stops where the hardware waits for ever. -/
  | stuckInFault
deriving DecidableEq, Repr

/-- What the model gives no meaning. -/
inductive Refusal where
  /-- Raised by an arm of `exec` for a command that has no meaning yet; no arm does so in this model. Safe. -/
  | notModelled (mnemonic : String)
  /-- Raised by `step` when the host changes the buffer while PHASE = BUSY: "a model refuses such a run" (R63, U10). Safe. -/
  | bufferChangedInFlight
  /-- Raised by `step` in a state with PHASE = BUSY when the host neither resets nor touches the buffer: commands are atomic
  (R5, R23), so the middle of one is no state that a step starts from, and none leads there. Safe. -/
  | insideCommand
deriving DecidableEq, Repr

/-- The machine right after reset (R38, R260), on an instance with the default parameters, with nothing readable and
nothing presented. RESULT and the transients, which the spec leaves unspecified, stand at zero (log entry 2). -/
def State.reset : State where
  tier := .bittrick
  tierLock := false
  phase := .idle
  fcode := .none
  faddr := 0#64
  result := 0#64
  tr := { acc := 0#64, pos := 0, rem := 0#5, pw0 := 0#64, pw1 := 0#64, vl := 0#128 }
  mem := []
  par := Params.default
  host := []
  responses := []
  draws := 0

end Sys2Proof.Machine
end

