-- ==== Sys2Proof/Machine/Flags.lean ====
section
/-! DEFINITION. The block has no flags (10_state.md R33). What a host can test instead is here: the control and status
registers of R34 and the status outputs of 30_encoding.md R80 and R91, as bits. -/

namespace Sys2Proof.Machine

/-- The encoding of PHASE (R23). -/
def Phase.toBits : Phase → BitVec 2
  | .idle => 0#2
  | .busy => 1#2
  | .fault => 2#2

/-- The encoding of FCODE (R24). -/
def FCode.toBits : FCode → BitVec 4
  | .none => 0#4
  | .bufferFault => 1#4
  | .illegalCommand => 2#4

/-- CR0, TIERCTL (R34): TIER in bits 1:0, TIER_LOCK in bit 2. -/
def State.tierctl (s : State) : BitVec 3 := BitVec.ofBool s.tierLock ++ s.tier.toBits

/-- CR1, STATUS (R34): PHASE in bits 1:0, bits 3:2 read 0, FCODE in bits 7:4. -/
def State.status (s : State) : BitVec 8 := s.fcode.toBits ++ 0#2 ++ s.phase.toBits

/-- The output `cmd_ready` "(= PHASE is IDLE)" (R80). -/
def State.cmdReady (s : State) : Bool := s.phase == .idle

end Sys2Proof.Machine
end

