-- ==== Sys2Proof/Machine/Memory.lean ====
section
/-! DEFINITION. The digit-buffer memory as a list in canonical form (20_memory.md R50): reading a byte, and the host's
two ways to change it. The block itself never writes memory (R59). -/

namespace Sys2Proof.Machine

/-- Addresses strictly rise. An unlisted address has no value, so no entry can equal what it reads as. -/
def Memory.wf : Mem → Bool
  | [] => true
  | (k, _) :: m => m.all (fun c => decide (k < c.1)) && Memory.wf m

/-- `MEM(a)` where `READABLE(a)`, and `none` elsewhere (R50). -/
def Memory.read : Mem → Nat → Option Byte
  | [], _ => none
  | (k, b) :: m, a => if a = k then some b else Memory.read m a

/-- The host writes `b` at `a` and lets the block read it. -/
def Memory.write : Mem → Nat → Byte → Mem
  | [], a, b => [(a, b)]
  | (k, c) :: m, a, b =>
    if a < k then (a, b) :: (k, c) :: m
    else if a = k then (a, b) :: m
    else (k, c) :: Memory.write m a b

/-- The host takes `a` out of the readable window. -/
def Memory.remove : Mem → Nat → Mem
  | [], _ => []
  | (k, c) :: m, a => if a = k then m else (k, c) :: Memory.remove m a

end Sys2Proof.Machine
end

