-- ==== Sys2Proof/Machine/Operands.lean ====
section
/-! DEFINITION. Operands: the address operand, the read primitive `MemRead` (20_memory.md R51, R52), the footprint of
each command (R55), and the digit values of 00_scope.md R9 and R10. -/

namespace Sys2Proof.Machine

/-- An address on the `AW` wires of the block (R80, `cmd_addr[AW-1:0]`), and `a mod 2^AW` of R51. -/
def wireAddr (p : Params) (a : Nat) : Addr := BitVec.ofNat 64 (a % 2 ^ p.aw)

/-- One byte of the buffer: `none` if `a >= 2^AW or not READABLE(a)` (R51). -/
def State.readByte (s : State) (a : Nat) : Option Byte :=
  if a < 2 ^ s.par.aw then Memory.read s.mem a else none

/-- The bytes at `a .. a+n-1` in increasing address order, or the first address of them that cannot be read (R51). The
addresses are natural numbers and do not wrap (R58). -/
def readBytes (s : State) : Nat → Nat → Except Nat (List Byte)
  | _, 0 => .ok []
  | a, n + 1 =>
    match s.readByte a with
    | none => .error a
    | some b =>
      match readBytes s (a + 1) n with
      | .error f => .error f
      | .ok bs => .ok (b :: bs)

/-- `sum over i of MEM(addr+i) * 2^(8*i)` (R51, R52): the byte at the lowest address is bits 7:0. -/
def littleEndian : List Byte → Nat
  | [] => 0
  | b :: bs => b.toNat + 2 ^ 8 * littleEndian bs

/-- `MemRead(addr, n)` (R51): the little-endian value of `8n` bits, or the lowest failing address. -/
def memRead (s : State) (a n : Nat) : Except Nat Nat :=
  match readBytes s a n with
  | .error f => .error f
  | .ok bs => .ok (littleEndian bs)

/-- The bytes of `a .. a+n-1` that can be read, in increasing address order: all `n` of them after a load succeeded. -/
def bytesAt (s : State) (a n : Nat) : List Byte :=
  (List.range n).filterMap fun k => s.readByte (a + k)

/-- How many bytes a command consumes from its address operand on (R55). A PARSEN that decode refuses consumes none. -/
def footprint : Instr → Nat
  | .setTier _ => 0
  | .parse4 _ => 4
  | .parse8 _ => 8
  | .parse16 _ => 16
  | .parseN _ l => if lenOk l then l.toNat else 0

/-- The address operand of a command as a number; SETTIER's is ignored (R85). -/
def addressOf : Instr → Nat
  | .setTier _ => 0
  | .parse4 a => a.toNat
  | .parse8 a => a.toNat
  | .parse16 a => a.toNat
  | .parseN a _ => a.toNat

/-- `isdigit(b)` (R9). -/
def isDigit (b : Byte) : Bool := 0x30 ≤ b.toNat && b.toNat ≤ 0x39

/-- `alldigits(bs)` (R9). -/
def allDigits (bs : List Byte) : Bool := bs.all isDigit

/-- `decimalValue(bs)` (R10): the byte at the lowest address is the most significant decimal digit. -/
def decimalValue : List Byte → Nat
  | [] => 0
  | b :: bs => (b.toNat - 0x30) * 10 ^ bs.length + decimalValue bs

end Sys2Proof.Machine
end

