-- ==== Sys2Proof/Machine/Ops.lean ====
section
/-! DEFINITION. The shared operations over the registers: acceptance (30_encoding.md R92), completion (43_commands.md
R208), fault entry (60_exceptions.md R236), reset (70_reset_and_hazards.md R260), and the host's acts on the buffer. -/

namespace Sys2Proof.Machine

/-- The causes of a fault (R230). A BufferFault carries the lowest address that could not be read. -/
inductive Cause where
  | bufferFault (a : Nat)
  | illegalCommand
deriving DecidableEq, Repr

/-- The code of a cause (R230). -/
def Cause.code : Cause → FCode
  | .bufferFault _ => .bufferFault
  | .illegalCommand => .illegalCommand

/-- What FADDR records (R25, R236): "info mod 2^AW for BufferFault; 0 for IllegalCommand". -/
def Cause.address (p : Params) : Cause → Addr
  | .bufferFault a => wireAddr p a
  | .illegalCommand => 0#64

/-- The transients when no command is executing: every one of them any value (R38, R208, U15). -/
def deadTransients (n : Nat) : Transients where
  acc := Config.deadAcc n
  pos := Config.deadPos n
  rem := Config.deadRem n
  pw0 := Config.deadPw0 n
  pw1 := Config.deadPw1 n
  vl := Config.deadVl n

/-- `raise F(info)`, fault entry (R236). TIER and TIER_LOCK keep the values they had. -/
def raise (c : Cause) (s : State) : State :=
  { s with
    fcode := c.code
    faddr := c.address s.par
    phase := .fault
    result := Config.resultAfterFault s.draws
    responses := { fault := true, code := c.code.toBits, data := Config.responseDataAfterFault s.draws } :: s.responses
    tr := deadTransients s.draws
    draws := s.draws + 1 }

/-- `respond(v)` (R208). -/
def respond (v : Word) (s : State) : State :=
  { s with
    result := v
    phase := .idle
    responses := { fault := false, code := 0#4, data := v } :: s.responses
    tr := deadTransients s.draws
    draws := s.draws + 1 }

/-- `respond_nodata()` (R208): RESULT unchanged, response (0, 0, 0). -/
def respondNoData (s : State) : State :=
  { s with
    phase := .idle
    responses := { fault := false, code := 0#4, data := 0#64 } :: s.responses
    tr := deadTransients s.draws
    draws := s.draws + 1 }

/-- "TIER_LOCK <- 1" (R92): the first parse command freezes TIER (R22). -/
def lockTier (s : State) : State := { s with tierLock := true }

/-- SETTIER's two writes (R201). -/
def writeTier (t : Tier) (s : State) : State := { s with tier := t, tierLock := true }

/-- The host's next action is taken off its list. -/
def takeAction (s : State) : State := { s with host := s.host.tail }

/-- Acceptance of the command the host presents (R80, R92): "PHASE <- BUSY". -/
def accept (s : State) : State := { takeAction s with phase := .busy }

/-- The command on the port as the block sees it: the address has `AW` wires (R80). -/
def portCommand (s : State) (cw : CmdWord) (a : Addr) : CmdWord × Addr := (cw, wireAddr s.par a.toNat)

/-- Reset (R260, R38): at any time, without a response, and without touching the buffer. There is no return from a fault
but this (R237). -/
def resetBlock (s : State) : State :=
  { takeAction s with
    tier := .bittrick
    tierLock := false
    phase := .idle
    fcode := .none
    faddr := 0#64
    result := Config.resultAfterReset s.draws
    tr := deadTransients s.draws
    draws := s.draws + 1 }

/-- The host writes a byte of its buffer between two commands (R266). -/
def hostStore (a : Nat) (b : Byte) (s : State) : State :=
  { takeAction s with mem := Memory.write s.mem a b }

/-- The host takes a byte out of the readable window between two commands. -/
def hostUnmap (a : Nat) (s : State) : State :=
  { takeAction s with mem := Memory.remove s.mem a }

end Sys2Proof.Machine
end

