-- ==== Sys2Proof/Machine/BitTrick.lean ====
section
/-! DEFINITION. The bit-trick kernel (40_bittrick_kernel.md): the levels L1, L2, L3 and the operations BT4, BT8, BT16.
A kernel reads memory and TIER from the state and can change the transients only. -/

namespace Sys2Proof.Machine

/-- The constants of the scaling multiplier SCALE (R171). -/
inductive Scale where
  | k1
  | k4
  | k8
deriving DecidableEq, Repr

/-- `constant(K)` (R171). -/
def Scale.const : Scale → Word
  | .k1 => 0x000000000000000A#64
  | .k4 => 0x0000000000002710#64
  | .k8 => 0x0000000005F5E100#64

/-- `SCALE(v, K) = v *64 constant(K)` (R171), modulo 2^64. -/
def scale (v : Word) (k : Scale) : Word := v * k.const

/-- L1, pairs of digits to 2-digit lanes (R112). -/
def swarL1 (w : Word) : Word :=
  ((w &&& 0x0F000F000F000F00#64) >>> 8) + (w &&& 0x000F000F000F000F#64) * 10#64

/-- L2, pairs of 2-digit lanes to 4-digit lanes (R113). -/
def swarL2 (w : Word) : Word :=
  ((w &&& 0x00FF000000FF0000#64) >>> 16) + (w &&& 0x000000FF000000FF#64) * 100#64

/-- L3, two 4-digit lanes to the 8-digit value (R114). -/
def swarL3 (w : Word) : Word :=
  ((w &&& 0x0000FFFF00000000#64) >>> 32) + (w &&& 0x000000000000FFFF#64) * 10000#64

/-- LOAD (R111): `zext_64(MemRead(a, n))`. -/
def loadPacked (s : State) (a n : Nat) : Except Nat Word :=
  match memRead s a n with
  | .error f => .error f
  | .ok v => .ok (BitVec.ofNat 64 v)

/-- BT4 (R116): `decimalValue` of four digits (R121). -/
def bt4 (s : State) (a : Nat) (t : Transients) : Except Nat (Word × Transients) :=
  match loadPacked s a 4 with
  | .error f => .error f
  | .ok w => .ok (swarL2 (swarL1 w), { t with pw0 := w })

/-- BT8 (R115): `decimalValue` of eight digits (R121). -/
def bt8 (s : State) (a : Nat) (t : Transients) : Except Nat (Word × Transients) :=
  match loadPacked s a 8 with
  | .error f => .error f
  | .ok w => .ok (swarL3 (swarL2 (swarL1 w)), { t with pw0 := w })

/-- BT16 (R117): both loads, the lower address first, before either conversion; `decimalValue` of sixteen digits (R121). -/
def bt16 (s : State) (a : Nat) (t : Transients) : Except Nat (Word × Transients) :=
  match loadPacked s a 8 with
  | .error f => .error f
  | .ok w0 =>
    match loadPacked s (a + 8) 8 with
    | .error f => .error f
    | .ok w1 =>
      .ok (scale (swarL3 (swarL2 (swarL1 w0))) .k8 + swarL3 (swarL2 (swarL1 w1)), { t with pw0 := w0, pw1 := w1 })

end Sys2Proof.Machine
end

