-- ==== Sys2Proof/Machine/Vector.lean ====
section
/-! DEFINITION. The vector kernel (41_vector_kernel.md): the lane operations on VL and the operations VK8, VK16. Both
dialects run these same rules (R152). A lane whose operands lie outside the stated input range is a free value (U9). -/

namespace Sys2Proof.Machine

/-- Lane `i` of width `w`: `VL[w*i+w-1 : w*i]` (R30). -/
def lane (w i : Nat) (v : VecReg) : Nat := (v.extractLsb' (w * i) w).toNat

/-- The number whose lanes of width `w` are the listed values, lane 0 first, each truncated to the lane (R9). -/
def joinLanes (w : Nat) : List Nat → Nat
  | [] => 0
  | x :: xs => x % 2 ^ w + 2 ^ w * joinLanes w xs

/-- The vector register with those lanes. -/
def ofLanes (w : Nat) (xs : List Nat) : VecReg := BitVec.ofNat 128 (joinLanes w xs)

/-- V.LOAD16 (R141). -/
def vLoad16 (s : State) (a : Nat) : Except Nat VecReg :=
  match memRead s a 16 with
  | .error f => .error f
  | .ok v => .ok (BitVec.ofNat 128 v)

/-- V.LOAD8DUP (R142): `{t, t}` of an 8-byte load. -/
def vLoad8Dup (s : State) (a : Nat) : Except Nat VecReg :=
  match memRead s a 8 with
  | .error f => .error f
  | .ok v => .ok (BitVec.ofNat 64 v ++ BitVec.ofNat 64 v)

/-- V.BIAS (R143): `b[i] <- (b[i] + 0xD0) mod 256`. -/
def vBias (v : VecReg) : VecReg :=
  ofLanes 8 ((List.range 16).map fun i => (lane 8 i v + 0xD0) % 256)

/-- A multiply-add of adjacent lanes: `count` lanes of width `2w`, lane `j` being `mul` times lane `2j` plus lane `2j+1`,
where both lie in the stated range `0 .. top`. -/
def vMadd (op : LaneOp) (w count mul top : Nat) (v : VecReg) : VecReg :=
  ofLanes (2 * w) ((List.range count).map fun j =>
    if lane w (2 * j) v ≤ top ∧ lane w (2 * j + 1) v ≤ top then mul * lane w (2 * j) v + 1 * lane w (2 * j + 1) v
    else Config.laneUnspec op j v)

/-- V.MADD1 (R144). -/
def vMadd1 : VecReg → VecReg := vMadd .madd1 8 8 10 9

/-- V.MADD2 (R145). -/
def vMadd2 : VecReg → VecReg := vMadd .madd2 16 4 100 99

/-- V.MADD3 (R147). -/
def vMadd3 : VecReg → VecReg := vMadd .madd3 16 4 10000 9999

/-- `sat16(s[k])` (R146), the identity on `0 .. 9999`, a free value elsewhere. -/
def sat16 (v : VecReg) (k : Nat) : Nat :=
  if lane 32 k v ≤ 9999 then lane 32 k v else Config.laneUnspec .pack k v

/-- V.PACK (R146): the four results in both halves of the register. -/
def vPack (v : VecReg) : VecReg :=
  ofLanes 16 ((List.range 4).map (sat16 v) ++ (List.range 4).map (sat16 v))

/-- V.FOLD (R148) where `s[0]` and `s[1]` lie in the stated range `0 .. 99999999`; a free value elsewhere (log entry 6). -/
def vFold (v : VecReg) : Word :=
  if lane 32 0 v ≤ 99999999 ∧ lane 32 1 v ≤ 99999999 then
    scale (BitVec.ofNat 64 (lane 32 0 v)) .k8 + BitVec.ofNat 64 (lane 32 1 v)
  else BitVec.ofNat 64 (Config.laneUnspec .fold 0 v)

/-- V.BIAS to V.MADD3, the lane operations that VK8 and VK16 share (R150, R151). On digits `s[0]` and `s[1]` of it are the
values of the two halves (R156). -/
def vPipeline (v : VecReg) : VecReg := vMadd3 (vPack (vMadd2 (vMadd1 (vBias v))))

/-- VK16 (R150): `decimalValue` of sixteen digits (R156). -/
def vk16 (s : State) (a : Nat) (t : Transients) : Except Nat (Word × Transients) :=
  match vLoad16 s a with
  | .error f => .error f
  | .ok v => .ok (vFold (vPipeline v), { t with vl := vPipeline v })

/-- VK8 (R151): `zext_64(s[0])`, without V.FOLD; `decimalValue` of eight digits (R156). -/
def vk8 (s : State) (a : Nat) (t : Transients) : Except Nat (Word × Transients) :=
  match vLoad8Dup s a with
  | .error f => .error f
  | .ok v => .ok (BitVec.ofNat 64 (lane 32 0 (vPipeline v)), { t with vl := vPipeline v })

end Sys2Proof.Machine
end

