-- ==== Sys2Proof/Machine/Composer.lean ====
section
/-! DEFINITION. The dispatch from an entry and TIER to a kernel (43_commands.md R206), and the length composer
(42_composer.md): FOLD and the stages INIT, S16, S8, S4, T1. -/

namespace Sys2Proof.Machine

/-- The parse-16 entry, K16 (R206). -/
def kernel16 (s : State) (a : Nat) (t : Transients) : Except Nat (Word × Transients) :=
  match s.tier with
  | .bittrick => bt16 s a t
  | .vecBase => vk16 s a t
  | .vecExt => vk16 s a t

/-- The parse-8 entry, K8 (R206). -/
def kernel8 (s : State) (a : Nat) (t : Transients) : Except Nat (Word × Transients) :=
  match s.tier with
  | .bittrick => bt8 s a t
  | .vecBase => vk8 s a t
  | .vecExt => vk8 s a t

/-- The parse-4 entry: BT4 on every tier (R155, R206). -/
def kernel4 (s : State) (a : Nat) (t : Transients) : Except Nat (Word × Transients) := bt4 s a t

/-- FOLD (R172): `ACC <- SCALE(ACC, K) +64 v`. -/
def foldAcc (k : Scale) (v : Word) (t : Transients) : Transients := { t with acc := scale t.acc k + v }

/-- The cursor moves over `n` consumed bytes (R28). -/
def advance (n : Nat) (t : Transients) : Transients :=
  { t with pos := t.pos + n, rem := t.rem - BitVec.ofNat 5 n }

/-- INIT (R173). -/
def stageInit (a : Nat) (len : BitVec 5) (t : Transients) : Transients :=
  { t with acc := 0#64, pos := a, rem := len }

/-- S16 (R174): an assignment, not a fold. -/
def stageS16 (s : State) (t : Transients) : Except Nat Transients :=
  if 16 ≤ t.rem.toNat then
    match kernel16 s t.pos t with
    | .error f => .error f
    | .ok (v, t') => .ok (advance 16 { t' with acc := v })
  else .ok t

/-- S8 (R175). -/
def stageS8 (s : State) (t : Transients) : Except Nat Transients :=
  if 8 ≤ t.rem.toNat then
    match kernel8 s t.pos t with
    | .error f => .error f
    | .ok (v, t') => .ok (advance 8 (foldAcc .k8 v t'))
  else .ok t

/-- S4 (R176). -/
def stageS4 (s : State) (t : Transients) : Except Nat Transients :=
  if 4 ≤ t.rem.toNat then
    match kernel4 s t.pos t with
    | .error f => .error f
    | .ok (v, t') => .ok (advance 4 (foldAcc .k4 v t'))
  else .ok t

/-- `zext_64(byte - 0x30)` (R177), the subtraction on the byte. -/
def tailDigit (byte : Byte) : Word := (byte - 0x30#8).setWidth 64

/-- T1 (R177), `n` times: one byte read, folded with K1, and passed over. -/
def stageT1 (s : State) : Nat → Transients → Except Nat Transients
  | 0, t => .ok t
  | n + 1, t =>
    match memRead s t.pos 1 with
    | .error f => .error f
    | .ok v => stageT1 s n (advance 1 (foldAcc .k1 (tailDigit (BitVec.ofNat 8 v)) t))

/-- The ladder of R178: INIT, S16, S8, S4, then T1 while REM > 0. The result stands in ACC. -/
def compose (s : State) (a : Nat) (len : BitVec 5) (t : Transients) : Except Nat Transients :=
  match stageS16 s (stageInit a len t) with
  | .error f => .error f
  | .ok t1 =>
    match stageS8 s t1 with
    | .error f => .error f
    | .ok t2 =>
      match stageS4 s t2 with
      | .error f => .error f
      | .ok t3 => stageT1 s t3.rem.toNat t3

end Sys2Proof.Machine
end

