-- ==== Sys2Proof/Machine/Commands.lean ====
section
/-! DEFINITION. The meanings of the five commands (43_commands.md R200 to R205), from the point where the block has
accepted one (PHASE = BUSY). -/

namespace Sys2Proof.Machine

/-- The architected result of a parse command (R200): the value of the datapath where the consumed bytes are digits,
`UNSPEC` as a whole where they are not. -/
def architected (op : ParseOp) (tier : Tier) (bs : List Byte) (v : Word) : Word :=
  if allDigits bs then v else Config.UNSPEC op tier bs

/-- The frame of a parse command (R200) whose datapath answered `r`, on a footprint of `n` bytes from `a`: a BufferFault
where a load failed (R231), else the response. -/
def finishParse (op : ParseOp) (a n : Nat) (r : Except Nat Word) (s : State) : Host.Outcome State Fault Refusal :=
  match r with
  | .error f => .next (raise (.bufferFault f) s)
  | .ok v => .next (respond (architected op s.tier (bytesAt s a n) v) s)

/-- The value a kernel hands over (R149). -/
def kernelValue : Except Nat (Word × Transients) → Except Nat Word
  | .error f => .error f
  | .ok (v, _) => .ok v

/-- The value the composer hands over, ACC (R181). -/
def composerValue : Except Nat Transients → Except Nat Word
  | .error f => .error f
  | .ok t => .ok t.acc

/-- SETTIER tier (R201). IllegalCommand where R86(d) or R86(e) holds. -/
def execSettier (tier : BitVec 2) (s : State) : Host.Outcome State Fault Refusal :=
  match Tier.ofBits tier with
  | none => .next (raise .illegalCommand s)
  | some t =>
    if s.par.tierMax.rank < t.rank then .next (raise .illegalCommand s)
    else if s.tierLock then .next (raise .illegalCommand s)
    else .next (respondNoData (writeTier t s))

/-- PARSE4 A (R202). -/
def execParse4 (a : Addr) (s : State) : Host.Outcome State Fault Refusal :=
  finishParse .parse4 a.toNat 4 (kernelValue (kernel4 (lockTier s) a.toNat s.tr)) (lockTier s)

/-- PARSE8 A (R203). -/
def execParse8 (a : Addr) (s : State) : Host.Outcome State Fault Refusal :=
  finishParse .parse8 a.toNat 8 (kernelValue (kernel8 (lockTier s) a.toNat s.tr)) (lockTier s)

/-- PARSE16 A (R204). -/
def execParse16 (a : Addr) (s : State) : Host.Outcome State Fault Refusal :=
  finishParse .parse16 a.toNat 16 (kernelValue (kernel16 (lockTier s) a.toNat s.tr)) (lockTier s)

/-- PARSEN A, len (R205): length 0 responds with no memory access; 17 to 31 are illegal (R86(c)). -/
def execParsen (a : Addr) (len : BitVec 5) (s : State) : Host.Outcome State Fault Refusal :=
  if lenOk len = false then .next (raise .illegalCommand s)
  else if len = 0#5 then .next (respond (Config.UNSPEC .parseN s.tier []) (lockTier s))
  else finishParse .parseN a.toNat len.toNat (composerValue (compose (lockTier s) a.toNat len s.tr)) (lockTier s)

end Sys2Proof.Machine
end

