-- ==== Sys2Proof/Machine/Dispatch.lean ====
section
/-! DEFINITION. One arm for each command. -/

namespace Sys2Proof.Machine

def exec (i : Instr) (s : State) : Host.Outcome State Fault Refusal :=
  match i with
  | .setTier tier => Sys2Proof.Machine.execSettier tier s
  | .parse4 a => Sys2Proof.Machine.execParse4 a s
  | .parse8 a => Sys2Proof.Machine.execParse8 a s
  | .parse16 a => Sys2Proof.Machine.execParse16 a s
  | .parseN a len => Sys2Proof.Machine.execParsen a len s

end Sys2Proof.Machine
end

