-- ==== Sys2Proof/Machine/Accept.lean ====
section
/-! DEFINITION. What an idle block does with a presented command (30_encoding.md R80, R92). -/

namespace Sys2Proof.Machine

/-- The block accepts the command, decodes it, and executes it or raises IllegalCommand (R92). -/
def runCommand (cw : CmdWord) (a : Addr) (s : State) : Host.Outcome State Fault Refusal :=
  match decode (portCommand s cw a).1 (portCommand s cw a).2 with
  | .error _ => .next (raise .illegalCommand (accept s))
  | .ok i => exec i (accept s)

/-- `s` with the command `c` presented before everything else the host will do. -/
def presentNext (c : CmdWord × Addr) (s : State) : State :=
  { s with host := .present c.1 c.2 :: s.host }

end Sys2Proof.Machine
end

