-- ==== Sys2Proof/Machine/Step.lean ====
section
/-! DEFINITION. One step: the host's next action (30_encoding.md R80, R92; 70_reset_and_hazards.md R260). -/

namespace Sys2Proof.Machine

/-- One step. With nothing to do an idle block stays as it is (R244). -/
def step (s : State) : Host.Outcome State Fault Refusal :=
  match s.host, s.phase with
  | .reset :: _, _ => .next (resetBlock s)
  | [], .idle => .next s
  | .present cw a :: _, .idle => runCommand cw a s
  | [], .fault => .fault .stuckInFault
  | .present _ _ :: _, .fault => .fault .stuckInFault
  | [], .busy => .refused .insideCommand
  | .present _ _ :: _, .busy => .refused .insideCommand
  | .store _ _ :: _, .busy => .refused .bufferChangedInFlight
  | .unmap _ :: _, .busy => .refused .bufferChangedInFlight
  | .store a b :: _, .idle => .next (hostStore a b s)
  | .store a b :: _, .fault => .next (hostStore a b s)
  | .unmap a :: _, .idle => .next (hostUnmap a s)
  | .unmap a :: _, .fault => .next (hostUnmap a s)

/-- `s` with the command whose bits are `w` presented next, its address operand as `tableCommand` has it. The next step
runs it where the block is ready (PHASE = IDLE), as it is after reset. -/
def State.withFetchWord (s : State) (nbits w : Nat) : State := presentNext (tableCommand nbits w) s

end Sys2Proof.Machine
end

