-- ==== Sys2Proof/Safety.lean ====
section
/-! DEFINITION. The words claims are made in: the invariant of the registers, readable footprints, and what a completed
and a faulted command leave. -/

namespace Sys2Proof.Machine

/-- The block is in its fault state; "a claim about a command sequence takes 'no fault was raised' as a premise" (R236). -/
def State.faulted (s : State) : Bool := s.phase == .fault

/-- What every step keeps: the parameters in their ranges (R7); the memory in canonical form; TIER a legal value (R21) and
still 0 while it is unlocked (R22, R201); no command between two steps (R23); FCODE set exactly in the fault state (R24);
FADDR zero but after a BufferFault (R25), and within the address space; and a BufferFault raised by a parse command, which
had locked the tier (R22, R231). That the parameters are a field of State and that the memory is a list with a canonical form
are the model's (log entries 1 and 3). -/
abbrev State.Inv (s : State) : Prop :=
  s.par.wf ∧
  Memory.wf s.mem = true ∧
  s.tier.rank ≤ s.par.tierMax.rank ∧
  (s.tierLock = false → s.tier = .bittrick) ∧
  s.phase ≠ .busy ∧
  (s.phase = .fault ↔ s.fcode ≠ .none) ∧
  (s.fcode ≠ .bufferFault → s.faddr = 0#64) ∧
  s.faddr.toNat < 2 ^ s.par.aw ∧
  (s.fcode = .bufferFault → s.tierLock = true)

/-- All of `a .. a+n-1` can be read (R51, R56). -/
def State.Readable (s : State) (a n : Nat) : Prop := ∀ k, k < n → (s.readByte (a + k)).isSome = true

/-- `a+k` is the lowest address of `a .. a+n-1` that cannot be read (R57). -/
def State.FirstUnreadable (s : State) (a n k : Nat) : Prop :=
  k < n ∧ s.readByte (a + k) = none ∧ s.Readable a k

/-- `bs` are the bytes at `a .. a+n-1`, lowest address first, all of them readable. -/
def State.Holds (s : State) (a : Nat) (bs : List Byte) : Prop :=
  ∀ k, (h : k < bs.length) → s.readByte (a + k) = some bs[k]

/-- The value a parse command responds with on the consumed bytes `bs` (R202 to R205): `decimalValue` of digits, `UNSPEC` of
anything else. -/
def parseValue (op : ParseOp) (tier : Tier) (bs : List Byte) : Word :=
  if allDigits bs then BitVec.ofNat 64 (decimalValue bs) else Config.UNSPEC op tier bs

/-- What no command writes: the buffer (R59), so that every byte reads as before, the parameters, and the host's list. -/
def State.SameOutside (s t : State) : Prop :=
  t.mem = s.mem ∧ (∀ x, t.readByte x = s.readByte x) ∧ t.par = s.par ∧ t.host = s.host

/-- `t` is what a parse command that responds with `v` leaves of `s`: RESULT, PHASE and the response (R208), TIER_LOCK set
(R22), and nothing else changed but the transients, which are dead. That responses are kept in a list is the model's (log entry
11). -/
def State.ParseDone (s t : State) (v : Word) : Prop :=
  t.result = v ∧ t.phase = .idle ∧ t.tierLock = true ∧
  t.responses = { fault := false, code := 0#4, data := v } :: s.responses ∧
  t.tier = s.tier ∧ t.fcode = s.fcode ∧ t.faddr = s.faddr ∧ s.SameOutside t

/-- `t` is what fault entry (R236) leaves of `s`, with FCODE `code` and FADDR `addr`. RESULT, the data of the response and the
transients are any values. That responses are kept in a list is the model's (log entry 11). -/
def State.FaultTaken (s t : State) (code : FCode) (addr : Addr) : Prop :=
  t.fcode = code ∧ t.faddr = addr ∧ t.phase = .fault ∧
  (∃ data, t.responses = { fault := true, code := code.toBits, data := data } :: s.responses) ∧
  t.tier = s.tier ∧ s.SameOutside t

/-- A presented command word raises IllegalCommand whatever else holds (R92): TIER_LOCK and all that `FaultTaken` names stay
as they were. The host's list is the model's (log entry 7). -/
def RaisesIllegal (cw : CmdWord) : Prop :=
  ∀ (s : State) (a : Addr) (rest : List HostAction), s.phase = .idle → s.host = .present cw a :: rest →
    ∃ t, step s = .next t ∧ (takeAction s).FaultTaken t .illegalCommand 0#64 ∧ t.tierLock = s.tierLock

/-- The same command on a block that holds another tier. -/
def State.withTier (s : State) (t : Tier) : State := { s with tier := t }

/-- The same block over another buffer. -/
def State.withMem (s : State) (m : Mem) : State := { s with mem := m }

/-- A chunk of a string, named by the stage that consumes it, with its offset from the string's address (R179). -/
inductive Chunk where
  | s16 (offset : Nat)
  | s8 (offset : Nat)
  | s4 (offset : Nat)
  | t1 (offset : Nat)
deriving DecidableEq, Repr

/-- The table of R179, row by row; a length that is not legal has no row. -/
def decomposition : Nat → List Chunk
  | 1 => [.t1 0]
  | 2 => [.t1 0, .t1 1]
  | 3 => [.t1 0, .t1 1, .t1 2]
  | 4 => [.s4 0]
  | 5 => [.s4 0, .t1 4]
  | 6 => [.s4 0, .t1 4, .t1 5]
  | 7 => [.s4 0, .t1 4, .t1 5, .t1 6]
  | 8 => [.s8 0]
  | 9 => [.s8 0, .t1 8]
  | 10 => [.s8 0, .t1 8, .t1 9]
  | 11 => [.s8 0, .t1 8, .t1 9, .t1 10]
  | 12 => [.s8 0, .s4 8]
  | 13 => [.s8 0, .s4 8, .t1 12]
  | 14 => [.s8 0, .s4 8, .t1 12, .t1 13]
  | 15 => [.s8 0, .s4 8, .t1 12, .t1 13, .t1 14]
  | 16 => [.s16 0]
  | _ => []

/-- The accumulator after one chunk of the string at `a` (R174 to R177): the chunk's value, from the kernel R206 names for it
or, for a tail byte, less 0x30, assigned by S16 and folded by the others; or the address that could not be read. -/
def Chunk.fold (s : State) (a : Nat) (t : Transients) (acc : Word) : Chunk → Except Nat Word
  | .s16 o => kernelValue (kernel16 s (a + o) t)
  | .s8 o => (kernelValue (kernel8 s (a + o) t)).map (acc * 100000000#64 + ·)
  | .s4 o => (kernelValue (bt4 s (a + o) t)).map (acc * 10000#64 + ·)
  | .t1 o =>
    match s.readByte (a + o) with
    | none => .error (a + o)
    | some b => .ok (acc * 10#64 + (b - 0x30#8).setWidth 64)

/-- The accumulator after a list of chunks, or the first address that could not be read. -/
def foldChunks (s : State) (a : Nat) (t : Transients) : Word → List Chunk → Except Nat Word
  | acc, [] => .ok acc
  | acc, c :: cs =>
    match c.fold s a t acc with
    | .error f => .error f
    | .ok acc' => foldChunks s a t acc' cs

end Sys2Proof.Machine
end

