-- ==== Sys2Proof/Certificates/Slice0/Obligations.lean ====
section
/-! DEFINITION. The statements for the provers. -/

open Sys2Proof Sys2Proof.Machine

/-! ## Encoding -/

/-- Decode after encode, for every well-formed command (R81, R82, R89). -/
def Obligations.DecodeOfEncodeIsTheCommand : Prop :=
  ∀ i : Instr, i.wf = true → decode (encode i).1 (encode i).2 = .ok i

/-- Every command word has one meaning: what decode accepts is well formed and encodes to that very word, with the address
operand, which SETTIER ignores (R81, R85). -/
def Obligations.DecodedWordIsItsEncoding : Prop :=
  ∀ (cw : CmdWord) (a : Addr) (i : Instr), decode cw a = .ok i →
    i.wf = true ∧ (encode i).1 = cw ∧ (i.isParse = true → (encode i).2 = a)

/-- `CW = zero << 11 | tier << 9 | len << 4 | op` (R81), read back field by field. -/
def Obligations.CommandWordFields : Prop :=
  ∀ (zero : BitVec 21) (tier : BitVec 2) (len : BitVec 5) (op : BitVec 4),
    (commandWord zero tier len op).toNat = zero.toNat * 2 ^ 11 + tier.toNat * 2 ^ 9 + len.toNat * 2 ^ 4 + op.toNat ∧
    fieldZero (commandWord zero tier len op) = zero ∧ fieldTier (commandWord zero tier len op) = tier ∧
    fieldLen (commandWord zero tier len op) = len ∧ fieldOp (commandWord zero tier len op) = op

/-- The worked encodings of R93. -/
def Obligations.WorkedEncodingsDecode : Prop :=
  (∀ a, decode 0x00000001#32 a = .ok (.setTier 0#2)) ∧
  (∀ a, decode 0x00000201#32 a = .ok (.setTier 1#2)) ∧
  (∀ a, decode 0x00000401#32 a = .ok (.setTier 2#2)) ∧
  decode 0x00000002#32 0x1000#64 = .ok (.parse4 0x1000#64) ∧
  decode 0x00000003#32 0x1000#64 = .ok (.parse8 0x1000#64) ∧
  decode 0x00000004#32 0x1000#64 = .ok (.parse16 0x1000#64) ∧
  decode 0x00000015#32 0x1000#64 = .ok (.parseN 0x1000#64 1#5) ∧
  decode 0x00000035#32 0x1000#64 = .ok (.parseN 0x1000#64 3#5) ∧
  decode 0x000000D5#32 0x1000#64 = .ok (.parseN 0x1000#64 13#5) ∧
  decode 0x00000105#32 0x1000#64 = .ok (.parseN 0x1000#64 16#5) ∧
  decode 0x00000005#32 0x1000#64 = .ok (.parseN 0x1000#64 0#5) ∧
  decode 0x00000115#32 0x1000#64 = .error .lenTooLong ∧
  (∀ a, decode 0x00000601#32 a = .error .tierReserved) ∧
  (∀ a, decode 0x00000000#32 a = .error .reservedOp) ∧
  (∀ a, decode 0x00000006#32 a = .error .reservedOp) ∧
  (∀ a, decode 0x00000013#32 a = .error .lenNotZero) ∧
  (∀ a, decode 0x00000802#32 a = .error .zeroBitsSet)

/-! ## Acceptance -/

/-- A step of an idle block on a presented command that decodes to `i` is `exec i` on the state in which the command was
accepted: taken off the host's list, PHASE = BUSY, the address on the `AW` wires (R80, R92). That commands come from a list in
State is the model's choice (log entry 7, DESIGN CHOICE). That the block sees a presented address modulo `2^AW` is the model's
reading of R80's `cmd_addr[AW-1:0]` (log entry 12, DEDUCED). -/
def Obligations.StepRunsTheDecodedCommand : Prop :=
  ∀ (s : State) (cw : CmdWord) (a : Addr) (rest : List HostAction) (i : Instr),
    s.phase = .idle → s.host = .present cw a :: rest →
    decode cw (BitVec.ofNat 64 (a.toNat % 2 ^ s.par.aw)) = .ok i →
    step s = exec i { s with host := rest, phase := .busy }

/-- R86: the illegal commands, (a) to (e), are exactly these; each raises IllegalCommand with TIER and TIER_LOCK as they
were, and no other command does. The host's list and the list of responses are the model's (log entries 7 and 11). -/
def Obligations.IllegalCommandsAreExactlyThese : Prop :=
  ∀ (s : State) (cw : CmdWord) (a : Addr) (rest : List HostAction),
    s.phase = .idle → s.host = .present cw a :: rest →
    ((fieldOp cw = 0#4 ∨ 6 ≤ (fieldOp cw).toNat ∨
        fieldZero cw ≠ 0#21 ∨ (fieldOp cw ≠ 5#4 ∧ fieldLen cw ≠ 0#5) ∨ (fieldOp cw ≠ 1#4 ∧ fieldTier cw ≠ 0#2) ∨
        (fieldOp cw = 5#4 ∧ 17 ≤ (fieldLen cw).toNat) ∨
        (fieldOp cw = 1#4 ∧ (fieldTier cw = 3#2 ∨ s.par.tierMax.toBits.toNat < (fieldTier cw).toNat)) ∨
        (fieldOp cw = 1#4 ∧ s.tierLock = true)) →
      ∃ t, step s = .next t ∧ (takeAction s).FaultTaken t .illegalCommand 0#64 ∧ t.tierLock = s.tierLock) ∧
    (¬ (fieldOp cw = 0#4 ∨ 6 ≤ (fieldOp cw).toNat ∨
        fieldZero cw ≠ 0#21 ∨ (fieldOp cw ≠ 5#4 ∧ fieldLen cw ≠ 0#5) ∨ (fieldOp cw ≠ 1#4 ∧ fieldTier cw ≠ 0#2) ∨
        (fieldOp cw = 5#4 ∧ 17 ≤ (fieldLen cw).toNat) ∨
        (fieldOp cw = 1#4 ∧ (fieldTier cw = 3#2 ∨ s.par.tierMax.toBits.toNat < (fieldTier cw).toNat)) ∨
        (fieldOp cw = 1#4 ∧ s.tierLock = true)) →
      ∃ t, step s = .next t ∧ (t.fcode = .illegalCommand → s.fcode = .illegalCommand) ∧
        (t.phase = .fault → t.fcode = .bufferFault))

/-- Every accepted command produces exactly one response (R91): on success `fault` = 0 and `code` = 0, with `data` the
result, 0 for SETTIER; on a fault `fault` = 1 and `code` = FCODE, with PHASE = FAULT and FCODE set (R236). That the command is
taken off a list of the host's and that the responses are kept in a list are the model's choices (log entries 7 and 11). -/
def Obligations.OneResponsePerAcceptedCommand : Prop :=
  ∀ (s : State) (cw : CmdWord) (a : Addr) (rest : List HostAction),
    s.phase = .idle → s.host = .present cw a :: rest →
    ∃ t r, step s = .next t ∧ t.host = rest ∧ t.responses = r :: s.responses ∧
      ((r.fault = false ∧ r.code = 0#4 ∧ t.phase = .idle ∧
          ((fieldOp cw = 1#4 ∧ r.data = 0#64 ∧ t.result = s.result) ∨ (fieldOp cw ≠ 1#4 ∧ r.data = t.result))) ∨
        (r.fault = true ∧ r.code = t.fcode.toBits ∧ t.phase = .fault ∧ t.fcode ≠ .none))

/-! ## The commands -/

/-- SETTIER (R201): a legal one writes TIER, sets TIER_LOCK and responds (0, 0, 0) with RESULT and all else unchanged;
an illegal one raises IllegalCommand, and so does one with a must-be-zero bit set. -/
def Obligations.SettierWritesTheTierOnce : Prop :=
  (∀ (s : State) (t : Tier), t.rank ≤ s.par.tierMax.rank → s.tierLock = false →
    ∃ u, exec (.setTier t.toBits) s = .next u ∧ u.tier = t ∧ u.tierLock = true ∧ u.phase = .idle ∧
      u.responses = { fault := false, code := 0#4, data := 0#64 } :: s.responses ∧
      u.result = s.result ∧ u.fcode = s.fcode ∧ u.faddr = s.faddr ∧ s.SameOutside u) ∧
  (∀ (s : State) (b : BitVec 2), (b = 3#2 ∨ s.par.tierMax.toBits.toNat < b.toNat ∨ s.tierLock = true) →
    ∃ u, exec (.setTier b) s = .next u ∧ s.FaultTaken u .illegalCommand 0#64 ∧ u.tierLock = s.tierLock) ∧
  (∀ cw : CmdWord, fieldOp cw = 1#4 → (fieldLen cw ≠ 0#5 ∨ fieldZero cw ≠ 0#21) → RaisesIllegal cw)

/-- PARSE4 (R202), on every tier. -/
def Obligations.Parse4RespondsWithFourDigits : Prop :=
  (∀ (s : State) (a : Addr), s.Readable a.toNat 4 →
    ∃ t, exec (.parse4 a) s = .next t ∧ s.ParseDone t (parseValue .parse4 s.tier (bytesAt s a.toNat 4))) ∧
  (∀ (s : State) (a : Addr) (k : Nat), s.FirstUnreadable a.toNat 4 k →
    ∃ t, exec (.parse4 a) s = .next t ∧ s.FaultTaken t .bufferFault (wireAddr s.par (a.toNat + k)) ∧ t.tierLock = true) ∧
  (∀ cw : CmdWord, fieldOp cw = 2#4 → (fieldLen cw ≠ 0#5 ∨ fieldTier cw ≠ 0#2 ∨ fieldZero cw ≠ 0#21) → RaisesIllegal cw)

/-- PARSE8 (R203), on every tier. -/
def Obligations.Parse8RespondsWithEightDigits : Prop :=
  (∀ (s : State) (a : Addr), s.Readable a.toNat 8 →
    ∃ t, exec (.parse8 a) s = .next t ∧ s.ParseDone t (parseValue .parse8 s.tier (bytesAt s a.toNat 8))) ∧
  (∀ (s : State) (a : Addr) (k : Nat), s.FirstUnreadable a.toNat 8 k →
    ∃ t, exec (.parse8 a) s = .next t ∧ s.FaultTaken t .bufferFault (wireAddr s.par (a.toNat + k)) ∧ t.tierLock = true) ∧
  (∀ cw : CmdWord, fieldOp cw = 3#4 → (fieldLen cw ≠ 0#5 ∨ fieldTier cw ≠ 0#2 ∨ fieldZero cw ≠ 0#21) → RaisesIllegal cw)

/-- PARSE16 (R204), on every tier. -/
def Obligations.Parse16RespondsWithSixteenDigits : Prop :=
  (∀ (s : State) (a : Addr), s.Readable a.toNat 16 →
    ∃ t, exec (.parse16 a) s = .next t ∧ s.ParseDone t (parseValue .parse16 s.tier (bytesAt s a.toNat 16))) ∧
  (∀ (s : State) (a : Addr) (k : Nat), s.FirstUnreadable a.toNat 16 k →
    ∃ t, exec (.parse16 a) s = .next t ∧ s.FaultTaken t .bufferFault (wireAddr s.par (a.toNat + k)) ∧ t.tierLock = true) ∧
  (∀ cw : CmdWord, fieldOp cw = 4#4 → (fieldLen cw ≠ 0#5 ∨ fieldTier cw ≠ 0#2 ∨ fieldZero cw ≠ 0#21) → RaisesIllegal cw)

/-- PARSEN (R205): length 0 responds UNSPEC(PARSEN, TIER, []) whatever can be read; lengths 1 to 16 on every tier; a length of
17 or more, a `tier` or a reserved bit is illegal. -/
def Obligations.ParsenRespondsWithItsDigits : Prop :=
  (∀ (s : State) (a : Addr),
    ∃ t, exec (.parseN a 0#5) s = .next t ∧ s.ParseDone t (Config.UNSPEC .parseN s.tier [])) ∧
  (∀ (s : State) (a : Addr) (len : BitVec 5), 1 ≤ len.toNat → len.toNat ≤ 16 → s.Readable a.toNat len.toNat →
    ∃ t, exec (.parseN a len) s = .next t ∧ s.ParseDone t (parseValue .parseN s.tier (bytesAt s a.toNat len.toNat))) ∧
  (∀ (s : State) (a : Addr) (len : BitVec 5) (k : Nat), len.toNat ≤ 16 → s.FirstUnreadable a.toNat len.toNat k →
    ∃ t, exec (.parseN a len) s = .next t ∧ s.FaultTaken t .bufferFault (wireAddr s.par (a.toNat + k)) ∧
      t.tierLock = true) ∧
  (∀ cw : CmdWord, fieldOp cw = 5#4 → (17 ≤ (fieldLen cw).toNat ∨ fieldTier cw ≠ 0#2 ∨ fieldZero cw ≠ 0#21) →
    RaisesIllegal cw)

/-- PARSEN with length 0, and a parse command whose consumed bytes are not all digits, complete without a fault and return
UNSPEC of their `op`, TIER and bytes (R87). -/
def Obligations.NonDigitsCompleteUnspecified : Prop :=
  ∀ (s : State) (a : Addr) (len : BitVec 5), 1 ≤ len.toNat → len.toNat ≤ 16 →
    (∃ t, exec (.parseN a 0#5) s = .next t ∧ s.ParseDone t (Config.UNSPEC .parseN s.tier [])) ∧
    (s.Readable a.toNat 4 → allDigits (bytesAt s a.toNat 4) = false →
      ∃ t, exec (.parse4 a) s = .next t ∧ s.ParseDone t (Config.UNSPEC .parse4 s.tier (bytesAt s a.toNat 4))) ∧
    (s.Readable a.toNat 8 → allDigits (bytesAt s a.toNat 8) = false →
      ∃ t, exec (.parse8 a) s = .next t ∧ s.ParseDone t (Config.UNSPEC .parse8 s.tier (bytesAt s a.toNat 8))) ∧
    (s.Readable a.toNat 16 → allDigits (bytesAt s a.toNat 16) = false →
      ∃ t, exec (.parse16 a) s = .next t ∧ s.ParseDone t (Config.UNSPEC .parse16 s.tier (bytesAt s a.toNat 16))) ∧
    (s.Readable a.toNat len.toNat → allDigits (bytesAt s a.toNat len.toNat) = false →
      ∃ t, exec (.parseN a len) s = .next t ∧
        s.ParseDone t (Config.UNSPEC .parseN s.tier (bytesAt s a.toNat len.toNat)))

/-- PARSEN as the staged ladder and as one function of its bytes agree (R182). -/
def Obligations.StagedParsenIsOneShot : Prop :=
  ∀ (s : State) (a : Addr) (len : BitVec 5), 1 ≤ len.toNat → len.toNat ≤ 16 →
    exec (.parseN a len) s =
      match readBytes s a.toNat len.toNat with
      | .error f => .next (raise (.bufferFault f) { s with tierLock := true })
      | .ok bs => .next (respond (parseValue .parseN s.tier bs) { s with tierLock := true })

/-- "L = 16 is S16 alone and equals PARSE16; L = 8 is S8 alone and equals PARSE8; L = 4 is S4 alone and equals PARSE4"
(R205), on digits and where a byte cannot be read. -/
def Obligations.ParsenAtAFixedWidthIsTheFixedCommand : Prop :=
  ∀ (s : State) (a : Addr),
    (allDigits (bytesAt s a.toNat 4) = true → exec (.parseN a 4#5) s = exec (.parse4 a) s) ∧
    (allDigits (bytesAt s a.toNat 8) = true → exec (.parseN a 8#5) s = exec (.parse8 a) s) ∧
    (allDigits (bytesAt s a.toNat 16) = true → exec (.parseN a 16#5) s = exec (.parse16 a) s)

/-! ## What a result depends on -/

/-- Tier independence (R207): on digits every parse command completes with the same response and RESULT on every tier, namely
`decimalValue`, and what it needs readable does not depend on the tier, digits or not. -/
def Obligations.TierDoesNotChangeAValidResult : Prop :=
  ∀ (i : Instr) (s : State) (tier : Tier), i.wf = true → 0 < footprint i →
    (s.Readable (addressOf i) (footprint i) → allDigits (bytesAt s (addressOf i) (footprint i)) = true →
      ∃ t u, exec i s = .next t ∧ exec i (s.withTier tier) = .next u ∧
        s.ParseDone t (BitVec.ofNat 64 (decimalValue (bytesAt s (addressOf i) (footprint i)))) ∧
        (s.withTier tier).ParseDone u (BitVec.ofNat 64 (decimalValue (bytesAt s (addressOf i) (footprint i))))) ∧
    (∃ t u, exec i s = .next t ∧ exec i (s.withTier tier) = .next u ∧ t.phase = u.phase ∧
      (t.phase = .fault → t.fcode = u.fcode ∧ t.faddr = u.faddr))

/-- Purity (R209): the response of a parse command is a function of its `op`, its length, the consumed bytes and TIER,
whatever the address, RESULT and the commands before it. -/
def Obligations.ResponseIsAFunctionOfTheBytes : Prop :=
  ∀ (i j : Instr) (s u : State), i.wf = true → j.wf = true → i.isParse = true → i.op = j.op → footprint i = footprint j →
    s.tier = u.tier → s.Readable (addressOf i) (footprint i) → u.Readable (addressOf j) (footprint j) →
    bytesAt s (addressOf i) (footprint i) = bytesAt u (addressOf j) (footprint j) →
    ∃ s' u', exec i s = .next s' ∧ exec j u = .next u' ∧ s'.result = u'.result ∧ s'.responses.head? = u'.responses.head?

/-- The footprint (R55): over another buffer that agrees on the bytes of a command's footprint, and on which of them can be
read, the command does the very same. -/
def Obligations.OnlyTheFootprintIsRead : Prop :=
  ∀ (i : Instr) (s : State) (m : Mem),
    (∀ k, k < footprint i → (s.withMem m).readByte (addressOf i + k) = s.readByte (addressOf i + k)) →
    ∃ t, exec i s = .next t ∧ exec i (s.withMem m) = .next (t.withMem m)

/-! ## Faults -/

/-- BufferFault (R57, R231): a parse command with an unreadable byte in its footprint produces no result, records the lowest
such address and stops the block; SETTIER and PARSEN with length 0 never raise it. -/
def Obligations.UnreadableByteRaisesBufferFault : Prop :=
  (∀ (i : Instr) (s : State) (k : Nat), i.wf = true → s.FirstUnreadable (addressOf i) (footprint i) k →
    ∃ t, exec i s = .next t ∧ s.FaultTaken t .bufferFault (BitVec.ofNat 64 ((addressOf i + k) % 2 ^ s.par.aw)) ∧
      t.tierLock = true) ∧
  (∀ (i : Instr) (s : State), footprint i = 0 → s.fcode ≠ .bufferFault →
    ∃ t, exec i s = .next t ∧ t.fcode ≠ .bufferFault)

/-- The top of the address space (R58): a footprint that crosses it raises BufferFault; where all bytes below it can be read,
FADDR is `2^AW mod 2^AW`. -/
def Obligations.FootprintDoesNotWrap : Prop :=
  ∀ (i : Instr) (s : State), i.wf = true → addressOf i < 2 ^ s.par.aw → 2 ^ s.par.aw < addressOf i + footprint i →
    ∃ t, exec i s = .next t ∧ t.phase = .fault ∧ t.fcode = .bufferFault ∧
      (s.Readable (addressOf i) (2 ^ s.par.aw - addressOf i) → t.faddr = 0#64)

/-- A faulted block (R236, R237): no command is accepted, nothing but `rst` leaves the fault state or changes the fault
record, and `rst` does leave it. That "the engine has no step" is answered by the fault `stuckInFault` is the model's choice
(log entry 9). -/
def Obligations.OnlyResetLeavesTheFaultState : Prop :=
  ∀ s : State, s.phase = .fault →
    (s.host = [] → step s = .fault .stuckInFault) ∧
    (∀ cw a rest, s.host = .present cw a :: rest → step s = .fault .stuckInFault) ∧
    (∀ t, step s = .next t → (∀ rest, s.host ≠ .reset :: rest) →
      t.phase = .fault ∧ t.fcode = s.fcode ∧ t.faddr = s.faddr) ∧
    (∀ rest, s.host = .reset :: rest → ∃ t, step s = .next t ∧ t.phase = .idle ∧ t.fcode = .none)

/-! ## Reset and the tier -/

/-- The registers to which the spec gives a reset value hold it in `State.reset` (R38), so TIERCTL and STATUS read 0 (R34) and
the output `cmd_ready` is 1 (R80). RESULT and the transients, whose reset values are the model's (log entry 2), are not spoken of. -/
def Obligations.ResetRegistersHoldTheirValues : Prop :=
  State.reset.tier = .bittrick ∧ State.reset.tierLock = false ∧ State.reset.phase = .idle ∧
    State.reset.fcode = .none ∧ State.reset.faddr = 0#64 ∧ State.reset.tierctl = 0#3 ∧ State.reset.status = 0#8 ∧
    State.reset.cmdReady = true

/-- `rst` (R260), in any state: TIER, TIER_LOCK, PHASE, FCODE and FADDR at their reset values, no response, the buffer not
touched; and nothing else leaves PHASE = FAULT or clears TIER_LOCK. The host's list and the list of responses are the model's
(log entries 7 and 11). -/
def Obligations.RstResetsFromAnyState : Prop :=
  (∀ (s : State) (rest : List HostAction), s.host = .reset :: rest →
    ∃ t, step s = .next t ∧ t.tier = .bittrick ∧ t.tierLock = false ∧ t.phase = .idle ∧ t.fcode = .none ∧
      t.faddr = 0#64 ∧ t.responses = s.responses ∧ t.mem = s.mem ∧ (∀ x, t.readByte x = s.readByte x) ∧
      t.par = s.par ∧ t.host = rest) ∧
  (∀ s t : State, step s = .next t → s.phase = .fault → t.phase ≠ .fault → ∃ rest, s.host = .reset :: rest) ∧
  (∀ s t : State, step s = .next t → s.tierLock = true → t.tierLock = false → ∃ rest, s.host = .reset :: rest)

/-- TIER_LOCK (R22): set by a successful SETTIER and by every parse command; cleared by reset alone; while it is set TIER does
not change. -/
def Obligations.TierIsFrozenOnceLocked : Prop :=
  (∀ (s : State) (t : Tier), t.rank ≤ s.par.tierMax.rank → s.tierLock = false →
    ∃ u, exec (.setTier t.toBits) s = .next u ∧ u.tierLock = true) ∧
  (∀ (i : Instr) (s : State), i.isParse = true → i.wf = true → ∃ u, exec i s = .next u ∧ u.tierLock = true) ∧
  (∀ s t : State, step s = .next t → s.tierLock = true → (∀ rest, s.host ≠ .reset :: rest) →
    t.tierLock = true ∧ t.tier = s.tier)

/-- The invariant of the registers holds at reset. That the parameters stand in State at their defaults and that the memory is
a list with a canonical form, empty at reset, are the model's choices (log entries 1 and 3). -/
def Obligations.ResetMeetsTheInvariant : Prop := State.reset.Inv

/-- Every step keeps the invariant of the registers: the parameters and the memory in form, TIER legal and 0 while unlocked,
no command between two steps, FCODE set exactly in the fault state, FADDR zero but after a BufferFault. That the parameters of
R7 are a field of State and that the memory is a list with a canonical form are the model's choices (log entries 1 and 3). -/
def Obligations.EveryStepKeepsTheInvariant : Prop :=
  ∀ s t : State, s.Inv → step s = .next t → t.Inv

/-! ## Memory -/

/-- `MemRead(addr, n)` (R51, R52): the sum over `i` of `MEM(addr+i) * 2^(8*i)` where all bytes can be read, else the lowest
address that is at or above `2^AW` or not readable. -/
def Obligations.MemReadIsLittleEndian : Prop :=
  (∀ (s : State) (a : Nat), s.readByte a = none ↔ 2 ^ s.par.aw ≤ a ∨ Memory.read s.mem a = none) ∧
  (∀ (s : State) (a : Nat) (bs : List Byte), s.Holds a bs →
    memRead s a bs.length = .ok (∑ i : Fin bs.length, bs[i].toNat * 2 ^ (8 * i.val))) ∧
  (∀ (s : State) (a n k : Nat), s.FirstUnreadable a n k → memRead s a n = .error (a + k))

/-- The block never writes memory (R59): only an act of the host on the buffer changes it. That the
host acts through a list in State is the model's (log entry 7). -/
def Obligations.OnlyTheHostWritesTheBuffer : Prop :=
  ∀ s t : State, step s = .next t → (∀ a b rest, s.host ≠ .store a b :: rest) → (∀ a rest, s.host ≠ .unmap a :: rest) →
    t.mem = s.mem ∧ ∀ x, t.readByte x = s.readByte x

/-- The host's two acts on the buffer between commands (R50, R266): a byte written is read back, a byte taken out of the
window is not readable, every other byte and every register stays. The two acts, and that a step takes one of them, are the model's choice (log
entry 7). -/
def Obligations.HostActsOnOneByte : Prop :=
  (∀ (s : State) (a : Nat) (b : Byte) (rest : List HostAction), s.phase ≠ .busy → s.host = .store a b :: rest →
    ∃ t, step s = .next t ∧ (a < 2 ^ s.par.aw → t.readByte a = some b) ∧
      (∀ x, x ≠ a → t.readByte x = s.readByte x) ∧ t = { s with host := rest, mem := t.mem }) ∧
  (∀ (s : State) (a : Nat) (rest : List HostAction), Memory.wf s.mem = true → s.phase ≠ .busy →
    s.host = .unmap a :: rest →
    ∃ t, step s = .next t ∧ t.readByte a = none ∧
      (∀ x, x ≠ a → t.readByte x = s.readByte x) ∧ t = { s with host := rest, mem := t.mem })

/-! ## The datapaths -/

/-- `decimalValue` (R10) as the sum it is written as, and its bound for 16 digits. -/
def Obligations.DecimalValueIsThePositionalSum : Prop :=
  (∀ bs : List Byte, decimalValue bs = ∑ i : Fin bs.length, (bs[i].toNat - 0x30) * 10 ^ (bs.length - 1 - i.val)) ∧
  (∀ bs : List Byte, allDigits bs = true → bs.length ≤ 16 → decimalValue bs ≤ 10 ^ 16 - 1 ∧ decimalValue bs < 2 ^ 64)

/-- L1 on any word (R112), lane by lane. -/
def Obligations.SwarL1CombinesNibblePairs : Prop :=
  (∀ (w : Word) (j : Nat), j < 4 →
    ((swarL1 w).extractLsb' (16 * j) 16).toNat =
        10 * (w.extractLsb' (16 * j) 8 &&& 0x0F#8).toNat + (w.extractLsb' (16 * j + 8) 8 &&& 0x0F#8).toNat ∧
      ((swarL1 w).extractLsb' (16 * j) 16).toNat ≤ 165 ∧
      (isDigit (w.extractLsb' (16 * j) 8) = true → isDigit (w.extractLsb' (16 * j + 8) 8) = true →
        ((swarL1 w).extractLsb' (16 * j) 16).toNat ≤ 99)) ∧
  swarL1 0x3837363534333231#64 = 0x004E00380022000C#64

/-- L2 on any word (R113), lane by lane; on a word from L1 each lane is at most 16665. -/
def Obligations.SwarL2CombinesPairs : Prop :=
  (∀ (w : Word) (k : Nat), k < 2 →
    ((swarL2 w).extractLsb' (32 * k) 32).toNat =
        100 * (w.extractLsb' (32 * k) 8).toNat + (w.extractLsb' (32 * k + 16) 8).toNat ∧
      ((swarL2 (swarL1 w)).extractLsb' (32 * k) 32).toNat ≤ 16665) ∧
  swarL2 0x004E00380022000C#64 = 0x0000162E000004D2#64

/-- L3 on any word (R114); on a word from L1 and L2 the result is at most 166666665. -/
def Obligations.SwarL3CombinesHalves : Prop :=
  (∀ w : Word,
    (swarL3 w).toNat = 10000 * (w.extractLsb' 0 16).toNat + (w.extractLsb' 32 16).toNat ∧
      (swarL3 (swarL2 (swarL1 w))).toNat ≤ 166666665) ∧
  swarL3 0x0000162E000004D2#64 = 12345678#64

/-- The operations of the vector kernel on their stated input ranges (R141 to R149): the two loads, V.BIAS, the multiply-adds,
V.PACK, V.FOLD, and what VK16 and VK8 extract. -/
def Obligations.VectorLaneOperations : Prop :=
  (∀ (s : State) (a : Nat), s.Readable a 16 →
    ∃ v, vLoad16 s a = .ok v ∧ ∀ i, i < 16 → s.readByte (a + i) = some (BitVec.ofNat 8 (lane 8 i v))) ∧
  (∀ (s : State) (a k : Nat), s.FirstUnreadable a 16 k → vLoad16 s a = .error (a + k)) ∧
  (∀ (s : State) (a : Nat), s.Readable a 8 →
    ∃ v, vLoad8Dup s a = .ok v ∧
      ∀ i, i < 8 → s.readByte (a + i) = some (BitVec.ofNat 8 (lane 8 i v)) ∧ lane 8 (i + 8) v = lane 8 i v) ∧
  (∀ (s : State) (a k : Nat), s.FirstUnreadable a 8 k → vLoad8Dup s a = .error (a + k)) ∧
  (∀ (v : VecReg) (i : Nat), i < 16 → lane 8 i (vBias v) = (lane 8 i v + 0xD0) % 256) ∧
  (∀ v : VecReg, (∀ i, i < 16 → lane 8 i v ≤ 9) →
    ∀ j, j < 8 → lane 16 j (vMadd1 v) = 10 * lane 8 (2 * j) v + 1 * lane 8 (2 * j + 1) v ∧ lane 16 j (vMadd1 v) ≤ 99) ∧
  (∀ v : VecReg, (∀ j, j < 8 → lane 16 j v ≤ 99) →
    ∀ k, k < 4 → lane 32 k (vMadd2 v) = 100 * lane 16 (2 * k) v + 1 * lane 16 (2 * k + 1) v ∧ lane 32 k (vMadd2 v) ≤ 9999) ∧
  (∀ v : VecReg, (∀ k, k < 4 → lane 32 k v ≤ 9999) →
    ∀ k, k < 4 → lane 16 k (vPack v) = lane 32 k v ∧ lane 16 (k + 4) (vPack v) = lane 32 k v) ∧
  (∀ v : VecReg, (∀ j, j < 8 → lane 16 j v ≤ 9999) →
    ∀ m, m < 4 → lane 32 m (vMadd3 v) = 10000 * lane 16 (2 * m) v + 1 * lane 16 (2 * m + 1) v ∧
      lane 32 m (vMadd3 v) ≤ 99999999) ∧
  (∀ v : VecReg, lane 32 0 v ≤ 99999999 → lane 32 1 v ≤ 99999999 →
    (vFold v).toNat = lane 32 0 v * 100000000 + lane 32 1 v ∧ (vFold v).toNat ≤ 9999999999999999) ∧
  (∀ (s : State) (a : Nat) (t : Transients) (v : VecReg), vLoad16 s a = .ok v →
    kernelValue (vk16 s a t) = .ok (vFold (vMadd3 (vPack (vMadd2 (vMadd1 (vBias v))))))) ∧
  (∀ (s : State) (a : Nat) (t : Transients) (v : VecReg), vLoad8Dup s a = .ok v →
    kernelValue (vk8 s a t) = .ok (BitVec.ofNat 64 (lane 32 0 (vMadd3 (vPack (vMadd2 (vMadd1 (vBias v))))))))

/-- Cross-family agreement (R15, R156): on digits VK8 hands over what BT8 does, and VK16 what BT16 does. -/
def Obligations.KernelFamiliesAgreeOnDigits : Prop :=
  ∀ (s : State) (a : Nat) (t u : Transients),
    (s.Readable a 8 → allDigits (bytesAt s a 8) = true → kernelValue (vk8 s a t) = kernelValue (bt8 s a u)) ∧
    (s.Readable a 16 → allDigits (bytesAt s a 16) = true → kernelValue (vk16 s a t) = kernelValue (bt16 s a u))

/-- FOLD (R172) with the constants of R171, modulo 2^64. -/
def Obligations.FoldIsModuloTwoToThe64 : Prop :=
  ∀ (v : Word) (t : Transients),
    (foldAcc .k1 v t).acc.toNat = (t.acc.toNat * 10 + v.toNat) % 2 ^ 64 ∧
    (foldAcc .k4 v t).acc.toNat = (t.acc.toNat * 10 ^ 4 + v.toNat) % 2 ^ 64 ∧
    (foldAcc .k8 v t).acc.toNat = (t.acc.toNat * 10 ^ 8 + v.toNat) % 2 ^ 64

/-- "a 13-digit string must decompose as an 8-digit chunk followed by a 4-digit chunk followed by a 1-digit chunk" (R178,
R179): the composer folds the chunk at 0 by the active 8-digit kernel, the chunk at 8 by BT4 and the byte at 12. That the
cursor stands at `a + 13`, not wrapped, also where that is `2^AW` is DEDUCED from R32 and R58 (log entry 5). -/
def Obligations.ThirteenBytesAreEightFourAndOne : Prop :=
  ∀ (s : State) (a : Nat) (t : Transients), s.Readable a 13 →
    ∃ v8 v4 b t', kernelValue (kernel8 s a t) = .ok v8 ∧ kernelValue (bt4 s (a + 8) t) = .ok v4 ∧
      s.readByte (a + 12) = some b ∧ compose s a 13#5 t = .ok t' ∧
      t'.acc = (v8 * 10000#64 + v4) * 10#64 + (b - 0x30#8).setWidth 64 ∧ t'.pos = a + 13 ∧ t'.rem = 0#5

/-- The vector kernel is right on digits, stage by stage (R156): with `d i` the digit in byte lane `i`, the lanes after V.MADD1,
V.MADD2 and V.MADD3, and the values VK16 and VK8 hand over, which are those of BT16 and BT8. -/
def Obligations.VectorKernelIsRightOnDigits : Prop :=
  (∀ (v : VecReg) (d : Nat → Nat), (∀ i, i < 16 → d i ≤ 9 ∧ lane 8 i v = 0x30 + d i) →
    (∀ j, j < 8 → lane 16 j (vMadd1 (vBias v)) = 10 * d (2 * j) + d (2 * j + 1)) ∧
    (∀ k, k < 4 → lane 32 k (vMadd2 (vMadd1 (vBias v))) =
      1000 * d (4 * k) + 100 * d (4 * k + 1) + 10 * d (4 * k + 2) + d (4 * k + 3)) ∧
    lane 32 0 (vMadd3 (vPack (vMadd2 (vMadd1 (vBias v))))) = ∑ i : Fin 8, d i.val * 10 ^ (7 - i.val) ∧
    lane 32 1 (vMadd3 (vPack (vMadd2 (vMadd1 (vBias v))))) = ∑ i : Fin 8, d (8 + i.val) * 10 ^ (7 - i.val)) ∧
  (∀ (s : State) (a : Nat) (t u : Transients), s.Readable a 16 → allDigits (bytesAt s a 16) = true →
    kernelValue (vk16 s a t) = .ok (BitVec.ofNat 64 (decimalValue (bytesAt s a 16))) ∧
      kernelValue (vk16 s a t) = kernelValue (bt16 s a u)) ∧
  (∀ (s : State) (a : Nat) (t u : Transients), s.Readable a 8 → allDigits (bytesAt s a 8) = true →
    (∃ v, vLoad8Dup s a = .ok v ∧ ∀ i, i < 8 → lane 8 (i + 8) v = lane 8 i v) ∧
      kernelValue (vk8 s a t) = .ok (BitVec.ofNat 64 (decimalValue (bytesAt s a 8))) ∧
      kernelValue (vk8 s a t) = kernelValue (bt8 s a u))

/-- The dispatch (R206): the three entries on the three tiers; the fixed commands and the stages S16, S8, S4 run the entry of
their width; the tail T1, and with it a run of fewer than 8 bytes, is the same on every tier; no parse command changes TIER. -/
def Obligations.DispatchSelectsTheKernelByTier : Prop :=
  (∀ (s : State) (a : Nat) (t : Transients),
    (s.tier = .bittrick → kernel16 s a t = bt16 s a t ∧ kernel8 s a t = bt8 s a t ∧ kernel4 s a t = bt4 s a t) ∧
    (s.tier = .vecBase → kernel16 s a t = vk16 s a t ∧ kernel8 s a t = vk8 s a t ∧ kernel4 s a t = bt4 s a t) ∧
    (s.tier = .vecExt → kernel16 s a t = vk16 s a t ∧ kernel8 s a t = vk8 s a t ∧ kernel4 s a t = bt4 s a t)) ∧
  (∀ (s : State) (a : Addr),
    exec (.parse16 a) s =
      finishParse .parse16 a.toNat 16 (kernelValue (kernel16 (lockTier s) a.toNat s.tr)) (lockTier s) ∧
    exec (.parse8 a) s =
      finishParse .parse8 a.toNat 8 (kernelValue (kernel8 (lockTier s) a.toNat s.tr)) (lockTier s) ∧
    exec (.parse4 a) s =
      finishParse .parse4 a.toNat 4 (kernelValue (kernel4 (lockTier s) a.toNat s.tr)) (lockTier s)) ∧
  (∀ (s : State) (t : Transients),
    (16 ≤ t.rem.toNat → composerValue (stageS16 s t) = kernelValue (kernel16 s t.pos t)) ∧
    (8 ≤ t.rem.toNat →
      composerValue (stageS8 s t) = (kernelValue (kernel8 s t.pos t)).map (t.acc * 100000000#64 + ·)) ∧
    (4 ≤ t.rem.toNat →
      composerValue (stageS4 s t) = (kernelValue (kernel4 s t.pos t)).map (t.acc * 10000#64 + ·))) ∧
  (∀ (s : State) (tier : Tier) (n : Nat) (t : Transients), stageT1 (s.withTier tier) n t = stageT1 s n t) ∧
  (∀ (s : State) (tier : Tier) (a : Nat) (len : BitVec 5) (t : Transients), len.toNat < 8 →
    compose (s.withTier tier) a len t = compose s a len t) ∧
  (∀ (i : Instr) (s : State), i.isParse = true → ∃ u, exec i s = .next u ∧ u.tier = s.tier)

/-- Every row of R179: for each legal length the composer folds exactly the chunks of the row, at the row's offsets, in that
order, each by the kernel of its stage, digits or not, and answers the first address that could not be read. -/
def Obligations.EveryLengthDecomposesAsItsRow : Prop :=
  ∀ (s : State) (a : Nat) (len : BitVec 5) (t : Transients), 1 ≤ len.toNat → len.toNat ≤ 16 →
    composerValue (compose s a len t) = foldChunks s a t 0#64 (decomposition len.toNat)

/-- The bit-trick kernel is right on digits, level by level (R121): with `d i` the digit in byte `i` of the packed word, the
lanes after L1 and L2 and the value of L3; the same of a word whose upper four bytes are 0, without L3; and the values BT8, BT4
and BT16 hand over. -/
def Obligations.BitTrickKernelIsRightOnDigits : Prop :=
  (∀ (w : Word) (d : Nat → Nat), (∀ i, i < 8 → d i ≤ 9 ∧ (w.extractLsb' (8 * i) 8).toNat = 0x30 + d i) →
    (∀ j, j < 4 → ((swarL1 w).extractLsb' (16 * j) 16).toNat = 10 * d (2 * j) + d (2 * j + 1)) ∧
    (∀ k, k < 2 → ((swarL2 (swarL1 w)).extractLsb' (32 * k) 32).toNat =
      1000 * d (4 * k) + 100 * d (4 * k + 1) + 10 * d (4 * k + 2) + d (4 * k + 3)) ∧
    (swarL3 (swarL2 (swarL1 w))).toNat = ∑ i : Fin 8, d i.val * 10 ^ (7 - i.val)) ∧
  (∀ (w : Word) (d : Nat → Nat), (∀ i, i < 4 → d i ≤ 9 ∧ (w.extractLsb' (8 * i) 8).toNat = 0x30 + d i) →
    w.extractLsb' 32 32 = 0#32 →
    (∀ j, j < 2 → ((swarL1 w).extractLsb' (16 * j) 16).toNat = 10 * d (2 * j) + d (2 * j + 1)) ∧
    (swarL2 (swarL1 w)).toNat = ∑ i : Fin 4, d i.val * 10 ^ (3 - i.val)) ∧
  (∀ (s : State) (a : Nat) (t : Transients),
    (s.Readable a 8 → allDigits (bytesAt s a 8) = true →
      kernelValue (bt8 s a t) = .ok (BitVec.ofNat 64 (decimalValue (bytesAt s a 8)))) ∧
    (s.Readable a 4 → allDigits (bytesAt s a 4) = true →
      kernelValue (bt4 s a t) = .ok (BitVec.ofNat 64 (decimalValue (bytesAt s a 4)))) ∧
    (s.Readable a 16 → allDigits (bytesAt s a 16) = true →
      kernelValue (bt16 s a t) = .ok (BitVec.ofNat 64 (decimalValue (bytesAt s a 16))) ∧
        decimalValue (bytesAt s a 16) = 10 ^ 8 * decimalValue (bytesAt s a 8) + decimalValue (bytesAt s (a + 8) 8)))

/-! ## The status registers and the idle block -/

/-- The bits of the status registers in every state (R34, with the encodings of R21, R23, R24 and R230): TIERCTL holds TIER
in 1:0 and TIER_LOCK in 2; STATUS holds PHASE in 1:0, 0 in 3:2 and FCODE in 7:4; `cmd_ready` is 1 exactly when PHASE is IDLE
(R80). -/
def Obligations.StatusRegistersShowTheState : Prop :=
  ∀ s : State,
    (s.tier = .bittrick → s.tierctl.extractLsb' 0 2 = 0#2) ∧
    (s.tier = .vecBase → s.tierctl.extractLsb' 0 2 = 1#2) ∧
    (s.tier = .vecExt → s.tierctl.extractLsb' 0 2 = 2#2) ∧
    s.tierctl.extractLsb' 2 1 = BitVec.ofBool s.tierLock ∧
    (s.phase = .idle → s.status.extractLsb' 0 2 = 0#2) ∧
    (s.phase = .busy → s.status.extractLsb' 0 2 = 1#2) ∧
    (s.phase = .fault → s.status.extractLsb' 0 2 = 2#2) ∧
    s.status.extractLsb' 2 2 = 0#2 ∧
    (s.fcode = .none → s.status.extractLsb' 4 4 = 0#4) ∧
    (s.fcode = .bufferFault → s.status.extractLsb' 4 4 = 1#4) ∧
    (s.fcode = .illegalCommand → s.status.extractLsb' 4 4 = 2#4) ∧
    (s.cmdReady = true ↔ s.phase = .idle) ∧
    FCode.toBits .none = 0#4 ∧ FCode.toBits .bufferFault = 1#4 ∧ FCode.toBits .illegalCommand = 2#4

/-- An idle block with nothing presented, and no act of the host, stays as it is in every field: "between commands the block
is simply IDLE" (R244). That such a step is taken at all is the model's choice (log entry 9). -/
def Obligations.IdleBlockStaysAsItIs : Prop :=
  ∀ s : State, s.phase = .idle → s.host = [] → step s = .next s
end

