-- ==== Sys2Proof/Laws/State.lean ====
section
/-! SUPPORT. One lemma per field per shared operation: what the field holds afterwards. -/

namespace Sys2Proof.Machine

@[simp] theorem raise_tier (c : Cause) (s : State) : (raise c s).tier = s.tier := rfl
@[simp] theorem raise_tierLock (c : Cause) (s : State) : (raise c s).tierLock = s.tierLock := rfl
@[simp] theorem raise_phase (c : Cause) (s : State) : (raise c s).phase = .fault := rfl
@[simp] theorem raise_fcode (c : Cause) (s : State) : (raise c s).fcode = c.code := rfl
@[simp] theorem raise_faddr (c : Cause) (s : State) : (raise c s).faddr = c.address s.par := rfl
@[simp] theorem raise_result (c : Cause) (s : State) : (raise c s).result = Config.resultAfterFault s.draws := rfl
@[simp] theorem raise_tr (c : Cause) (s : State) : (raise c s).tr = deadTransients s.draws := rfl
@[simp] theorem raise_mem (c : Cause) (s : State) : (raise c s).mem = s.mem := rfl
@[simp] theorem raise_par (c : Cause) (s : State) : (raise c s).par = s.par := rfl
@[simp] theorem raise_host (c : Cause) (s : State) : (raise c s).host = s.host := rfl
@[simp] theorem raise_responses (c : Cause) (s : State) : (raise c s).responses = { fault := true, code := c.code.toBits, data := Config.responseDataAfterFault s.draws } :: s.responses := rfl
@[simp] theorem raise_draws (c : Cause) (s : State) : (raise c s).draws = s.draws + 1 := rfl

@[simp] theorem respond_tier (v : Word) (s : State) : (respond v s).tier = s.tier := rfl
@[simp] theorem respond_tierLock (v : Word) (s : State) : (respond v s).tierLock = s.tierLock := rfl
@[simp] theorem respond_phase (v : Word) (s : State) : (respond v s).phase = .idle := rfl
@[simp] theorem respond_fcode (v : Word) (s : State) : (respond v s).fcode = s.fcode := rfl
@[simp] theorem respond_faddr (v : Word) (s : State) : (respond v s).faddr = s.faddr := rfl
@[simp] theorem respond_result (v : Word) (s : State) : (respond v s).result = v := rfl
@[simp] theorem respond_tr (v : Word) (s : State) : (respond v s).tr = deadTransients s.draws := rfl
@[simp] theorem respond_mem (v : Word) (s : State) : (respond v s).mem = s.mem := rfl
@[simp] theorem respond_par (v : Word) (s : State) : (respond v s).par = s.par := rfl
@[simp] theorem respond_host (v : Word) (s : State) : (respond v s).host = s.host := rfl
@[simp] theorem respond_responses (v : Word) (s : State) : (respond v s).responses = { fault := false, code := 0#4, data := v } :: s.responses := rfl
@[simp] theorem respond_draws (v : Word) (s : State) : (respond v s).draws = s.draws + 1 := rfl

@[simp] theorem respondNoData_tier (s : State) : (respondNoData s).tier = s.tier := rfl
@[simp] theorem respondNoData_tierLock (s : State) : (respondNoData s).tierLock = s.tierLock := rfl
@[simp] theorem respondNoData_phase (s : State) : (respondNoData s).phase = .idle := rfl
@[simp] theorem respondNoData_fcode (s : State) : (respondNoData s).fcode = s.fcode := rfl
@[simp] theorem respondNoData_faddr (s : State) : (respondNoData s).faddr = s.faddr := rfl
@[simp] theorem respondNoData_result (s : State) : (respondNoData s).result = s.result := rfl
@[simp] theorem respondNoData_tr (s : State) : (respondNoData s).tr = deadTransients s.draws := rfl
@[simp] theorem respondNoData_mem (s : State) : (respondNoData s).mem = s.mem := rfl
@[simp] theorem respondNoData_par (s : State) : (respondNoData s).par = s.par := rfl
@[simp] theorem respondNoData_host (s : State) : (respondNoData s).host = s.host := rfl
@[simp] theorem respondNoData_responses (s : State) : (respondNoData s).responses = { fault := false, code := 0#4, data := 0#64 } :: s.responses := rfl
@[simp] theorem respondNoData_draws (s : State) : (respondNoData s).draws = s.draws + 1 := rfl

@[simp] theorem lockTier_tier (s : State) : (lockTier s).tier = s.tier := rfl
@[simp] theorem lockTier_tierLock (s : State) : (lockTier s).tierLock = true := rfl
@[simp] theorem lockTier_phase (s : State) : (lockTier s).phase = s.phase := rfl
@[simp] theorem lockTier_fcode (s : State) : (lockTier s).fcode = s.fcode := rfl
@[simp] theorem lockTier_faddr (s : State) : (lockTier s).faddr = s.faddr := rfl
@[simp] theorem lockTier_result (s : State) : (lockTier s).result = s.result := rfl
@[simp] theorem lockTier_tr (s : State) : (lockTier s).tr = s.tr := rfl
@[simp] theorem lockTier_mem (s : State) : (lockTier s).mem = s.mem := rfl
@[simp] theorem lockTier_par (s : State) : (lockTier s).par = s.par := rfl
@[simp] theorem lockTier_host (s : State) : (lockTier s).host = s.host := rfl
@[simp] theorem lockTier_responses (s : State) : (lockTier s).responses = s.responses := rfl
@[simp] theorem lockTier_draws (s : State) : (lockTier s).draws = s.draws := rfl

@[simp] theorem writeTier_tier (t : Tier) (s : State) : (writeTier t s).tier = t := rfl
@[simp] theorem writeTier_tierLock (t : Tier) (s : State) : (writeTier t s).tierLock = true := rfl
@[simp] theorem writeTier_phase (t : Tier) (s : State) : (writeTier t s).phase = s.phase := rfl
@[simp] theorem writeTier_fcode (t : Tier) (s : State) : (writeTier t s).fcode = s.fcode := rfl
@[simp] theorem writeTier_faddr (t : Tier) (s : State) : (writeTier t s).faddr = s.faddr := rfl
@[simp] theorem writeTier_result (t : Tier) (s : State) : (writeTier t s).result = s.result := rfl
@[simp] theorem writeTier_tr (t : Tier) (s : State) : (writeTier t s).tr = s.tr := rfl
@[simp] theorem writeTier_mem (t : Tier) (s : State) : (writeTier t s).mem = s.mem := rfl
@[simp] theorem writeTier_par (t : Tier) (s : State) : (writeTier t s).par = s.par := rfl
@[simp] theorem writeTier_host (t : Tier) (s : State) : (writeTier t s).host = s.host := rfl
@[simp] theorem writeTier_responses (t : Tier) (s : State) : (writeTier t s).responses = s.responses := rfl
@[simp] theorem writeTier_draws (t : Tier) (s : State) : (writeTier t s).draws = s.draws := rfl

@[simp] theorem takeAction_tier (s : State) : (takeAction s).tier = s.tier := rfl
@[simp] theorem takeAction_tierLock (s : State) : (takeAction s).tierLock = s.tierLock := rfl
@[simp] theorem takeAction_phase (s : State) : (takeAction s).phase = s.phase := rfl
@[simp] theorem takeAction_fcode (s : State) : (takeAction s).fcode = s.fcode := rfl
@[simp] theorem takeAction_faddr (s : State) : (takeAction s).faddr = s.faddr := rfl
@[simp] theorem takeAction_result (s : State) : (takeAction s).result = s.result := rfl
@[simp] theorem takeAction_tr (s : State) : (takeAction s).tr = s.tr := rfl
@[simp] theorem takeAction_mem (s : State) : (takeAction s).mem = s.mem := rfl
@[simp] theorem takeAction_par (s : State) : (takeAction s).par = s.par := rfl
@[simp] theorem takeAction_host (s : State) : (takeAction s).host = s.host.tail := rfl
@[simp] theorem takeAction_responses (s : State) : (takeAction s).responses = s.responses := rfl
@[simp] theorem takeAction_draws (s : State) : (takeAction s).draws = s.draws := rfl

@[simp] theorem accept_tier (s : State) : (accept s).tier = s.tier := rfl
@[simp] theorem accept_tierLock (s : State) : (accept s).tierLock = s.tierLock := rfl
@[simp] theorem accept_phase (s : State) : (accept s).phase = .busy := rfl
@[simp] theorem accept_fcode (s : State) : (accept s).fcode = s.fcode := rfl
@[simp] theorem accept_faddr (s : State) : (accept s).faddr = s.faddr := rfl
@[simp] theorem accept_result (s : State) : (accept s).result = s.result := rfl
@[simp] theorem accept_tr (s : State) : (accept s).tr = s.tr := rfl
@[simp] theorem accept_mem (s : State) : (accept s).mem = s.mem := rfl
@[simp] theorem accept_par (s : State) : (accept s).par = s.par := rfl
@[simp] theorem accept_host (s : State) : (accept s).host = s.host.tail := rfl
@[simp] theorem accept_responses (s : State) : (accept s).responses = s.responses := rfl
@[simp] theorem accept_draws (s : State) : (accept s).draws = s.draws := rfl

@[simp] theorem resetBlock_tier (s : State) : (resetBlock s).tier = .bittrick := rfl
@[simp] theorem resetBlock_tierLock (s : State) : (resetBlock s).tierLock = false := rfl
@[simp] theorem resetBlock_phase (s : State) : (resetBlock s).phase = .idle := rfl
@[simp] theorem resetBlock_fcode (s : State) : (resetBlock s).fcode = .none := rfl
@[simp] theorem resetBlock_faddr (s : State) : (resetBlock s).faddr = 0#64 := rfl
@[simp] theorem resetBlock_result (s : State) : (resetBlock s).result = Config.resultAfterReset s.draws := rfl
@[simp] theorem resetBlock_tr (s : State) : (resetBlock s).tr = deadTransients s.draws := rfl
@[simp] theorem resetBlock_mem (s : State) : (resetBlock s).mem = s.mem := rfl
@[simp] theorem resetBlock_par (s : State) : (resetBlock s).par = s.par := rfl
@[simp] theorem resetBlock_host (s : State) : (resetBlock s).host = s.host.tail := rfl
@[simp] theorem resetBlock_responses (s : State) : (resetBlock s).responses = s.responses := rfl
@[simp] theorem resetBlock_draws (s : State) : (resetBlock s).draws = s.draws + 1 := rfl

@[simp] theorem hostStore_tier (a : Nat) (b : Byte) (s : State) : (hostStore a b s).tier = s.tier := rfl
@[simp] theorem hostStore_tierLock (a : Nat) (b : Byte) (s : State) : (hostStore a b s).tierLock = s.tierLock := rfl
@[simp] theorem hostStore_phase (a : Nat) (b : Byte) (s : State) : (hostStore a b s).phase = s.phase := rfl
@[simp] theorem hostStore_fcode (a : Nat) (b : Byte) (s : State) : (hostStore a b s).fcode = s.fcode := rfl
@[simp] theorem hostStore_faddr (a : Nat) (b : Byte) (s : State) : (hostStore a b s).faddr = s.faddr := rfl
@[simp] theorem hostStore_result (a : Nat) (b : Byte) (s : State) : (hostStore a b s).result = s.result := rfl
@[simp] theorem hostStore_tr (a : Nat) (b : Byte) (s : State) : (hostStore a b s).tr = s.tr := rfl
@[simp] theorem hostStore_mem (a : Nat) (b : Byte) (s : State) : (hostStore a b s).mem = Memory.write s.mem a b := rfl
@[simp] theorem hostStore_par (a : Nat) (b : Byte) (s : State) : (hostStore a b s).par = s.par := rfl
@[simp] theorem hostStore_host (a : Nat) (b : Byte) (s : State) : (hostStore a b s).host = s.host.tail := rfl
@[simp] theorem hostStore_responses (a : Nat) (b : Byte) (s : State) : (hostStore a b s).responses = s.responses := rfl
@[simp] theorem hostStore_draws (a : Nat) (b : Byte) (s : State) : (hostStore a b s).draws = s.draws := rfl

@[simp] theorem hostUnmap_tier (a : Nat) (s : State) : (hostUnmap a s).tier = s.tier := rfl
@[simp] theorem hostUnmap_tierLock (a : Nat) (s : State) : (hostUnmap a s).tierLock = s.tierLock := rfl
@[simp] theorem hostUnmap_phase (a : Nat) (s : State) : (hostUnmap a s).phase = s.phase := rfl
@[simp] theorem hostUnmap_fcode (a : Nat) (s : State) : (hostUnmap a s).fcode = s.fcode := rfl
@[simp] theorem hostUnmap_faddr (a : Nat) (s : State) : (hostUnmap a s).faddr = s.faddr := rfl
@[simp] theorem hostUnmap_result (a : Nat) (s : State) : (hostUnmap a s).result = s.result := rfl
@[simp] theorem hostUnmap_tr (a : Nat) (s : State) : (hostUnmap a s).tr = s.tr := rfl
@[simp] theorem hostUnmap_mem (a : Nat) (s : State) : (hostUnmap a s).mem = Memory.remove s.mem a := rfl
@[simp] theorem hostUnmap_par (a : Nat) (s : State) : (hostUnmap a s).par = s.par := rfl
@[simp] theorem hostUnmap_host (a : Nat) (s : State) : (hostUnmap a s).host = s.host.tail := rfl
@[simp] theorem hostUnmap_responses (a : Nat) (s : State) : (hostUnmap a s).responses = s.responses := rfl
@[simp] theorem hostUnmap_draws (a : Nat) (s : State) : (hostUnmap a s).draws = s.draws := rfl

@[simp] theorem presentNext_tier (c : CmdWord × Addr) (s : State) : (presentNext c s).tier = s.tier := rfl
@[simp] theorem presentNext_tierLock (c : CmdWord × Addr) (s : State) : (presentNext c s).tierLock = s.tierLock := rfl
@[simp] theorem presentNext_phase (c : CmdWord × Addr) (s : State) : (presentNext c s).phase = s.phase := rfl
@[simp] theorem presentNext_fcode (c : CmdWord × Addr) (s : State) : (presentNext c s).fcode = s.fcode := rfl
@[simp] theorem presentNext_faddr (c : CmdWord × Addr) (s : State) : (presentNext c s).faddr = s.faddr := rfl
@[simp] theorem presentNext_result (c : CmdWord × Addr) (s : State) : (presentNext c s).result = s.result := rfl
@[simp] theorem presentNext_tr (c : CmdWord × Addr) (s : State) : (presentNext c s).tr = s.tr := rfl
@[simp] theorem presentNext_mem (c : CmdWord × Addr) (s : State) : (presentNext c s).mem = s.mem := rfl
@[simp] theorem presentNext_par (c : CmdWord × Addr) (s : State) : (presentNext c s).par = s.par := rfl
@[simp] theorem presentNext_host (c : CmdWord × Addr) (s : State) : (presentNext c s).host = .present c.1 c.2 :: s.host := rfl
@[simp] theorem presentNext_responses (c : CmdWord × Addr) (s : State) : (presentNext c s).responses = s.responses := rfl
@[simp] theorem presentNext_draws (c : CmdWord × Addr) (s : State) : (presentNext c s).draws = s.draws := rfl

@[simp] theorem raise_readByte (c : Cause) (s : State) (a : Nat) : (raise c s).readByte a = s.readByte a := rfl

@[simp] theorem respond_readByte (v : Word) (s : State) (a : Nat) : (respond v s).readByte a = s.readByte a := rfl

@[simp] theorem respondNoData_readByte (s : State) (a : Nat) : (respondNoData s).readByte a = s.readByte a := rfl

@[simp] theorem lockTier_readByte (s : State) (a : Nat) : (lockTier s).readByte a = s.readByte a := rfl

@[simp] theorem writeTier_readByte (t : Tier) (s : State) (a : Nat) : (writeTier t s).readByte a = s.readByte a := rfl

@[simp] theorem takeAction_readByte (s : State) (a : Nat) : (takeAction s).readByte a = s.readByte a := rfl

@[simp] theorem accept_readByte (s : State) (a : Nat) : (accept s).readByte a = s.readByte a := rfl

@[simp] theorem resetBlock_readByte (s : State) (a : Nat) : (resetBlock s).readByte a = s.readByte a := rfl

@[simp] theorem presentNext_readByte (c : CmdWord × Addr) (s : State) (a : Nat) : (presentNext c s).readByte a = s.readByte a := rfl

end Sys2Proof.Machine
end

