-- ==== Sys2Proof/Laws/Memory.lean ====
section
/-! SUPPORT. The digit-buffer memory: a read after a write, and that the host's acts keep the canonical form. -/

namespace Sys2Proof.Machine

theorem Memory.wf_cons (k : Nat) (b : Byte) (m : Mem) :
    Memory.wf ((k, b) :: m) = true ↔ (∀ c ∈ m, k < c.1) ∧ Memory.wf m = true := by
  simp [Memory.wf]

theorem Memory.read_write_same (m : Mem) (a : Nat) (b : Byte) : Memory.read (Memory.write m a b) a = some b := by
  induction m with
  | nil => simp [Memory.write, Memory.read]
  | cons c m ih =>
    obtain ⟨k, c⟩ := c
    by_cases h1 : a < k
    · simp [Memory.write, Memory.read, h1]
    · by_cases h2 : a = k
      · simp [Memory.write, Memory.read, h2]
      · simp [Memory.write, Memory.read, h1, h2, ih]

theorem Memory.read_write_of_ne (m : Mem) {a x : Nat} (b : Byte) (h : x ≠ a) :
    Memory.read (Memory.write m a b) x = Memory.read m x := by
  induction m with
  | nil => simp [Memory.write, Memory.read, h]
  | cons c m ih =>
    obtain ⟨k, c⟩ := c
    by_cases h1 : a < k
    · simp [Memory.write, Memory.read, h1, h]
    · by_cases h2 : a = k
      · subst h2; simp [Memory.write, Memory.read, h]
      · simp [Memory.write, Memory.read, h1, h2, ih]

theorem Memory.mem_write {m : Mem} {a : Nat} {b : Byte} {c : Host.Cell} (h : c ∈ Memory.write m a b) :
    c.1 = a ∨ c ∈ m := by
  induction m with
  | nil => simp [Memory.write] at h; simp [h]
  | cons d m ih =>
    obtain ⟨k, d⟩ := d
    simp only [Memory.write] at h
    split at h
    · rcases List.mem_cons.1 h with rfl | h
      · exact .inl rfl
      · exact .inr h
    · split at h
      · rcases List.mem_cons.1 h with rfl | h
        · exact .inl rfl
        · exact .inr (List.mem_cons_of_mem _ h)
      · rcases List.mem_cons.1 h with rfl | h
        · exact .inr List.mem_cons_self
        · exact (ih h).imp id (List.mem_cons_of_mem _)

theorem Memory.write_wf {m : Mem} (a : Nat) (b : Byte) (h : Memory.wf m = true) : Memory.wf (Memory.write m a b) = true := by
  induction m with
  | nil => simp [Memory.write, Memory.wf]
  | cons c m ih =>
    obtain ⟨k, c⟩ := c
    have ⟨hk, hm⟩ := (Memory.wf_cons k c m).1 h
    simp only [Memory.write]
    split
    · rename_i hlt
      refine (Memory.wf_cons _ _ _).2 ⟨fun d hd => ?_, h⟩
      rcases List.mem_cons.1 hd with rfl | hd
      · exact hlt
      · exact hlt.trans (hk d hd)
    · split
      · rename_i heq
        exact (Memory.wf_cons _ _ _).2 ⟨fun d hd => heq ▸ hk d hd, hm⟩
      · refine (Memory.wf_cons _ _ _).2 ⟨fun d hd => ?_, ih hm⟩
        rcases Memory.mem_write hd with h' | h'
        · omega
        · exact hk d h'

theorem Memory.mem_remove {m : Mem} {a : Nat} {c : Host.Cell} (h : c ∈ Memory.remove m a) : c ∈ m := by
  induction m with
  | nil => simp [Memory.remove] at h
  | cons d m ih =>
    obtain ⟨k, d⟩ := d
    simp only [Memory.remove] at h
    split at h
    · exact List.mem_cons_of_mem _ h
    · rcases List.mem_cons.1 h with rfl | h
      · exact List.mem_cons_self
      · exact List.mem_cons_of_mem _ (ih h)

theorem Memory.remove_wf {m : Mem} (a : Nat) (h : Memory.wf m = true) : Memory.wf (Memory.remove m a) = true := by
  induction m with
  | nil => simp [Memory.remove, Memory.wf]
  | cons c m ih =>
    obtain ⟨k, c⟩ := c
    have ⟨hk, hm⟩ := (Memory.wf_cons k c m).1 h
    simp only [Memory.remove]
    split
    · exact hm
    · exact (Memory.wf_cons _ _ _).2 ⟨fun d hd => hk d (Memory.mem_remove hd), ih hm⟩

theorem Memory.read_remove_of_ne (m : Mem) {a x : Nat} (h : x ≠ a) :
    Memory.read (Memory.remove m a) x = Memory.read m x := by
  induction m with
  | nil => rfl
  | cons c m ih =>
    obtain ⟨k, c⟩ := c
    by_cases h2 : a = k
    · subst h2; simp [Memory.remove, Memory.read, h]
    · simp [Memory.remove, Memory.read, h2, ih]

theorem Memory.read_eq_none_of_lt {m : Mem} {a : Nat} (h : ∀ c ∈ m, a < c.1) : Memory.read m a = none := by
  induction m with
  | nil => rfl
  | cons c m ih =>
    obtain ⟨k, c⟩ := c
    have : a < k := h _ List.mem_cons_self
    simp [Memory.read, Nat.ne_of_lt this, ih fun d hd => h d (List.mem_cons_of_mem _ hd)]

theorem Memory.read_remove_same {m : Mem} {a : Nat} (h : Memory.wf m = true) :
    Memory.read (Memory.remove m a) a = none := by
  induction m with
  | nil => rfl
  | cons c m ih =>
    obtain ⟨k, c⟩ := c
    have ⟨hk, hm⟩ := (Memory.wf_cons k c m).1 h
    by_cases h2 : a = k
    · subst h2; simpa [Memory.remove] using Memory.read_eq_none_of_lt hk
    · simp [Memory.remove, Memory.read, h2, ih hm]

end Sys2Proof.Machine
end

