-- ==== Sys2Proof/Laws/Operands.lean ====
section
/-! SUPPORT. What a load can do, once: it answers the bytes of its whole range, or the lowest address of it that cannot be
read; and the laws of `littleEndian` and `decimalValue`. -/

namespace Sys2Proof.Machine

theorem wireAddr_lt (p : Params) (h : p.aw ≤ 64) (a : Nat) : (wireAddr p a).toNat < 2 ^ p.aw := by
  have h1 : a % 2 ^ p.aw < 2 ^ p.aw := Nat.mod_lt _ (by positivity)
  have h2 : 2 ^ p.aw ≤ 2 ^ 64 := Nat.pow_le_pow_right (by norm_num) h
  simp only [wireAddr, BitVec.toNat_ofNat]
  rw [Nat.mod_eq_of_lt (by omega)]
  exact h1

/-- The tail of a range of readable bytes is readable. -/
theorem State.Readable.tail {s : State} {a n : Nat} (h : s.Readable a (n + 1)) : s.Readable (a + 1) n := by
  intro k hk
  have := h (k + 1) (by omega)
  rwa [show a + (k + 1) = a + 1 + k by omega] at this

theorem State.Readable.mono {s : State} {a n m : Nat} (h : s.Readable a n) (hm : m ≤ n) : s.Readable a m :=
  fun k hk => h k (by omega)

theorem State.Readable.shift {s : State} {a n m k : Nat} (h : s.Readable a n) (hm : k + m ≤ n) : s.Readable (a + k) m := by
  intro j hj
  have := h (k + j) (by omega)
  rwa [show a + (k + j) = a + k + j by omega] at this

theorem bytesAt_congr {s t : State} (h : ∀ x, s.readByte x = t.readByte x) (a n : Nat) : bytesAt s a n = bytesAt t a n := by
  simp [bytesAt, h]

/-- A readable byte in front of a range of bytes. -/
theorem bytesAt_succ {s : State} {a n : Nat} {b : Byte} (h : s.readByte a = some b) :
    bytesAt s a (n + 1) = b :: bytesAt s (a + 1) n := by
  rw [bytesAt, List.range_succ_eq_map, List.filterMap_cons_some (b := b) (by simpa using h), List.filterMap_map]
  congr 1
  refine List.filterMap_congr fun k _ => ?_
  simp only [Function.comp_apply]
  congr 1; omega

theorem bytesAt_zero (s : State) (a : Nat) : bytesAt s a 0 = [] := rfl

theorem bytesAt_add {s : State} {a n m : Nat} : bytesAt s a (n + m) = bytesAt s a n ++ bytesAt s (a + n) m := by
  rw [bytesAt, List.range_add, List.filterMap_append, List.filterMap_map]
  simp only [bytesAt]
  congr 1
  refine List.filterMap_congr fun k _ => ?_
  simp only [Function.comp_apply]
  congr 1; omega

theorem bytesAt_length {s : State} {a n : Nat} (h : s.Readable a n) : (bytesAt s a n).length = n := by
  induction n generalizing a with
  | zero => rfl
  | succ n ih =>
    obtain ⟨b, hb⟩ := Option.isSome_iff_exists.1 (h 0 (by omega))
    rw [bytesAt_succ (by simpa using hb), List.length_cons, ih h.tail]

/-- The bytes a state holds at an address are the bytes a command consumes there. -/
theorem State.Holds.bytesAt {s : State} {a : Nat} {bs : List Byte} (h : s.Holds a bs) :
    bytesAt s a bs.length = bs := by
  induction bs generalizing a with
  | nil => rfl
  | cons b bs ih =>
    have hb := h 0 (by simp)
    rw [List.length_cons, bytesAt_succ (b := b) (by simpa using hb), ih]
    intro k hk
    have := h (k + 1) (by simpa using hk)
    rwa [show a + (k + 1) = a + 1 + k by omega] at this

theorem State.Holds.readable {s : State} {a : Nat} {bs : List Byte} (h : s.Holds a bs) : s.Readable a bs.length := by
  intro k hk
  rw [h k hk]; rfl

/-- A load of a readable range answers its bytes. -/
theorem readBytes_ok {s : State} {a n : Nat} (h : s.Readable a n) : readBytes s a n = .ok (bytesAt s a n) := by
  induction n generalizing a with
  | zero => rfl
  | succ n ih =>
    obtain ⟨b, hb⟩ := Option.isSome_iff_exists.1 (h 0 (by omega))
    rw [bytesAt_succ (by simpa using hb), readBytes, show s.readByte a = some b by simpa using hb, ih h.tail]

/-- A load answers the lowest address that cannot be read (R51, R57). -/
theorem readBytes_error {s : State} {a n k : Nat} (h : s.FirstUnreadable a n k) : readBytes s a n = .error (a + k) := by
  obtain ⟨hk, hnone, hbelow⟩ := h
  induction n generalizing a k with
  | zero => omega
  | succ n ih =>
    cases k with
    | zero => rw [readBytes, show s.readByte a = none by simpa using hnone]; rfl
    | succ k =>
      obtain ⟨b, hb⟩ := Option.isSome_iff_exists.1 (hbelow 0 (by omega))
      have := ih (a := a + 1) (k := k) (by omega) (by rwa [show a + 1 + k = a + (k + 1) by omega]) hbelow.tail
      rw [readBytes, show s.readByte a = some b by simpa using hb, this]
      simp only [Except.error.injEq]; omega

/-- A range is readable, or one of its addresses is the lowest that is not. -/
theorem readable_or_first (s : State) (a n : Nat) : s.Readable a n ∨ ∃ k, s.FirstUnreadable a n k := by
  induction n with
  | zero => exact .inl fun k hk => by omega
  | succ n ih =>
    rcases ih with h | ⟨k, hk, h⟩
    · cases hb : s.readByte (a + n) with
      | none => exact .inr ⟨n, by omega, hb, h⟩
      | some b =>
        refine .inl fun k hk => ?_
        rcases Nat.lt_succ_iff_lt_or_eq.1 hk with h' | rfl
        · exact h k h'
        · rw [hb]; rfl
    · exact .inr ⟨k, by omega, h⟩

theorem memRead_ok {s : State} {a n : Nat} (h : s.Readable a n) : memRead s a n = .ok (littleEndian (bytesAt s a n)) := by
  rw [memRead, readBytes_ok h]

theorem memRead_error {s : State} {a n k : Nat} (h : s.FirstUnreadable a n k) : memRead s a n = .error (a + k) := by
  rw [memRead, readBytes_error h]

/-- The bytes a load consumes, one by one. -/
theorem bytesAt_getElem {s : State} {a n : Nat} (hr : s.Readable a n) {i : Nat} (hi : i < (bytesAt s a n).length) :
    s.readByte (a + i) = some (bytesAt s a n)[i] := by
  induction n generalizing a i with
  | zero => simp [bytesAt_zero] at hi
  | succ n ih =>
    obtain ⟨b, hb⟩ := Option.isSome_iff_exists.1 (hr 0 (by omega))
    rw [Nat.add_zero] at hb
    simp only [bytesAt_succ hb, List.length_cons] at hi ⊢
    cases i with
    | zero => simpa using hb
    | succ i =>
      rw [List.getElem_cons_succ, ← ih hr.tail (by omega), Nat.add_assoc, Nat.add_comm 1]

/-- A load does not depend on the tier. -/
@[simp] theorem memRead_withTier (s : State) (tier : Tier) (a n : Nat) : memRead (s.withTier tier) a n = memRead s a n := by
  have h : ∀ n a, readBytes (s.withTier tier) a n = readBytes s a n := fun n => by
    induction n with
    | zero => exact fun _ => rfl
    | succ n ih => intro a; simp only [readBytes, ih]; rfl
  simp only [memRead, h]

theorem littleEndian_lt (bs : List Byte) : littleEndian bs < 2 ^ (8 * bs.length) := by
  induction bs with
  | nil => simp [littleEndian]
  | cons b bs ih =>
    have := b.isLt
    rw [littleEndian, List.length_cons, show 8 * (bs.length + 1) = 8 + 8 * bs.length by ring, Nat.pow_add]
    have h2 : littleEndian bs + 1 ≤ 2 ^ (8 * bs.length) := ih
    have h3 := Nat.mul_le_mul_left (2 ^ 8) h2
    omega

theorem allDigits_cons (b : Byte) (bs : List Byte) : allDigits (b :: bs) = (isDigit b && allDigits bs) := rfl

theorem allDigits_append (bs cs : List Byte) : allDigits (bs ++ cs) = (allDigits bs && allDigits cs) := by
  simp [allDigits]

theorem isDigit_iff {b : Byte} : isDigit b = true ↔ 48 ≤ b.toNat ∧ b.toNat ≤ 57 := by
  simp [isDigit]

/-- "decimalValue(xs ++ ys) = decimalValue(xs) * 10^|ys| + decimalValue(ys)" (R184). -/
theorem decimalValue_append (bs cs : List Byte) :
    decimalValue (bs ++ cs) = decimalValue bs * 10 ^ cs.length + decimalValue cs := by
  induction bs with
  | nil => simp [decimalValue]
  | cons b bs ih =>
    simp only [List.cons_append, decimalValue, ih, List.length_append, Nat.pow_add]
    ring

/-- A string of `n` digits is worth at most `10^n - 1` (R10). -/
theorem decimalValue_lt {bs : List Byte} (h : allDigits bs = true) : decimalValue bs < 10 ^ bs.length := by
  induction bs with
  | nil => simp [decimalValue]
  | cons b bs ih =>
    rw [allDigits_cons, Bool.and_eq_true, isDigit_iff] at h
    have h1 := ih h.2
    have h2 : (b.toNat - 48) * 10 ^ bs.length ≤ 9 * 10 ^ bs.length := Nat.mul_le_mul_right _ (by omega)
    rw [decimalValue, List.length_cons, Nat.pow_succ]
    omega

/-- Reading the low nibble of a digit byte gives the digit. -/
theorem digit_nibble {b : Byte} (h : isDigit b = true) : b.toNat % 16 = b.toNat - 48 := by
  rw [isDigit_iff] at h; omega

end Sys2Proof.Machine
end

