-- ==== Sys2Proof/Laws/BitTrick.lean ====
section
/-! SUPPORT. The bit-trick levels lane by lane on any word (40_bittrick_kernel.md R112 to R114, R118), and what BT4, BT8
and BT16 answer (R121). -/

namespace Sys2Proof.Machine

/-- AND works on a low lane and on the rest separately. -/
theorem land_split (k : Nat) {a b c d : Nat} (ha : a < 2 ^ k) (hc : c < 2 ^ k) :
    (a + 2 ^ k * b) &&& (c + 2 ^ k * d) = (a &&& c) + 2 ^ k * (b &&& d) := by
  have h1 : ((a + 2 ^ k * b) &&& (c + 2 ^ k * d)) % 2 ^ k = a &&& c := by
    rw [Nat.and_mod_two_pow, Nat.add_mul_mod_self_left, Nat.add_mul_mod_self_left, Nat.mod_eq_of_lt ha, Nat.mod_eq_of_lt hc]
  have h2 : ((a + 2 ^ k * b) &&& (c + 2 ^ k * d)) / 2 ^ k = b &&& d := by
    rw [Nat.and_div_two_pow, Nat.add_mul_div_left _ _ (by positivity), Nat.add_mul_div_left _ _ (by positivity),
      Nat.div_eq_of_lt ha, Nat.div_eq_of_lt hc, Nat.zero_add, Nat.zero_add]
  rw [← Nat.mod_add_div ((a + 2 ^ k * b) &&& (c + 2 ^ k * d)) (2 ^ k), h1, h2]

theorem land_byte {a b : Nat} (c d : Nat) (ha : a < 256) (hc : c < 256) :
    (a + 256 * b) &&& (c + 256 * d) = (a &&& c) + 256 * (b &&& d) := land_split 8 ha hc

theorem land_half {a b : Nat} (c d : Nat) (ha : a < 65536) (hc : c < 65536) :
    (a + 65536 * b) &&& (c + 65536 * d) = (a &&& c) + 65536 * (b &&& d) := land_split 16 ha hc

theorem land_15 (a : Nat) : a &&& 15 = a % 16 := Nat.and_two_pow_sub_one_eq_mod a 4
theorem land_255 (a : Nat) : a &&& 255 = a % 256 := Nat.and_two_pow_sub_one_eq_mod a 8
theorem land_65535 (a : Nat) : a &&& 65535 = a % 65536 := Nat.and_two_pow_sub_one_eq_mod a 16

/-- A word is the numeral of its value. -/
theorem eq_ofNat_of_toNat {w : Word} {n : Nat} (h : w.toNat = n) : w = BitVec.ofNat 64 n := by
  rw [← h, BitVec.ofNat_toNat, BitVec.setWidth_eq]

/-- L1 on the word whose bytes are `d0` to `d7` (R112): lane `j` is 10 times the low nibble of byte `2j` plus that of byte
`2j+1`. -/
theorem swarL1_bytes {d0 d1 d2 d3 d4 d5 d6 d7 : Nat} (h0 : d0 < 256) (h1 : d1 < 256) (h2 : d2 < 256) (h3 : d3 < 256)
    (h4 : d4 < 256) (h5 : d5 < 256) (h6 : d6 < 256) (h7 : d7 < 256) :
    (swarL1 (BitVec.ofNat 64
      (d0 + 256 * (d1 + 256 * (d2 + 256 * (d3 + 256 * (d4 + 256 * (d5 + 256 * (d6 + 256 * d7))))))))).toNat =
    (10 * (d0 % 16) + d1 % 16) + 65536 * ((10 * (d2 % 16) + d3 % 16) + 65536 * ((10 * (d4 % 16) + d5 % 16) +
      65536 * (10 * (d6 % 16) + d7 % 16))) := by
  have hm1 : (0x0F000F000F000F00 : Nat) =
    0 + 256 * (15 + 256 * (0 + 256 * (15 + 256 * (0 + 256 * (15 + 256 * (0 + 256 * 15)))))) := by norm_num
  have hm2 : (0x000F000F000F000F : Nat) =
    15 + 256 * (0 + 256 * (15 + 256 * (0 + 256 * (15 + 256 * (0 + 256 * (15 + 256 * 0)))))) := by norm_num
  simp only [swarL1, BitVec.toNat_add, BitVec.toNat_mul, BitVec.toNat_ushiftRight, BitVec.toNat_and, BitVec.toNat_ofNat,
    Nat.shiftRight_eq_div_pow]
  rw [Nat.mod_eq_of_lt (a := d0 + _) (by omega), Nat.mod_eq_of_lt (a := 0x0F000F000F000F00) (by norm_num),
    Nat.mod_eq_of_lt (a := 0x000F000F000F000F) (by norm_num), hm1, hm2]
  simp only [land_byte, h0, h1, h2, h3, h4, h5, h6, show (0 : Nat) < 256 by norm_num, show (15 : Nat) < 256 by norm_num,
    land_15, Nat.and_zero]
  omega

/-- L2 on the word whose 16-bit lanes are `e0` to `e3` (R113). -/
theorem swarL2_halves {e0 e1 e2 e3 : Nat} (h0 : e0 < 65536) (h1 : e1 < 65536) (h2 : e2 < 65536) (h3 : e3 < 65536) :
    (swarL2 (BitVec.ofNat 64 (e0 + 65536 * (e1 + 65536 * (e2 + 65536 * e3))))).toNat =
    (100 * (e0 % 256) + e1 % 256) + 4294967296 * (100 * (e2 % 256) + e3 % 256) := by
  have hm1 : (0x00FF000000FF0000 : Nat) = 0 + 65536 * (255 + 65536 * (0 + 65536 * 255)) := by norm_num
  have hm2 : (0x000000FF000000FF : Nat) = 255 + 65536 * (0 + 65536 * (255 + 65536 * 0)) := by norm_num
  simp only [swarL2, BitVec.toNat_add, BitVec.toNat_mul, BitVec.toNat_ushiftRight, BitVec.toNat_and, BitVec.toNat_ofNat,
    Nat.shiftRight_eq_div_pow]
  rw [Nat.mod_eq_of_lt (a := e0 + _) (by omega), Nat.mod_eq_of_lt (a := 0x00FF000000FF0000) (by norm_num),
    Nat.mod_eq_of_lt (a := 0x000000FF000000FF) (by norm_num), hm1, hm2]
  simp only [land_half, h0, h1, h2, show (0 : Nat) < 65536 by norm_num, show (255 : Nat) < 65536 by norm_num,
    land_255, Nat.and_zero]
  omega

/-- L3 on the word whose 32-bit lanes are `f0` and `f1` (R114). -/
theorem swarL3_words {f0 f1 : Nat} (h0 : f0 < 4294967296) (h1 : f1 < 4294967296) :
    (swarL3 (BitVec.ofNat 64 (f0 + 4294967296 * f1))).toNat = 10000 * (f0 % 65536) + f1 % 65536 := by
  have hm1 : (0x0000FFFF00000000 : Nat) = 0 + 2 ^ 32 * 65535 := by norm_num
  have hn : f0 + 4294967296 * f1 = f0 + 2 ^ 32 * f1 := by norm_num
  simp only [swarL3, BitVec.toNat_add, BitVec.toNat_mul, BitVec.toNat_ushiftRight, BitVec.toNat_and, BitVec.toNat_ofNat,
    Nat.shiftRight_eq_div_pow]
  rw [Nat.mod_eq_of_lt (a := f0 + _) (by omega), Nat.mod_eq_of_lt (a := 0x0000FFFF00000000) (by norm_num),
    Nat.mod_eq_of_lt (a := 0x000000000000FFFF) (by norm_num), land_65535, hn, hm1,
    land_split 32 (by omega) (by norm_num), land_65535, Nat.and_zero, Nat.zero_add, Nat.mul_div_cancel_left _ (by norm_num),
    show (f0 + 2 ^ 32 * f1) % 65536 = f0 % 65536 by omega]
  omega

/-- The value of the low nibbles of four bytes: what L2 after L1 leaves of them. -/
def nibbles4 (d0 d1 d2 d3 : Nat) : Nat := 1000 * (d0 % 16) + 100 * (d1 % 16) + 10 * (d2 % 16) + d3 % 16

theorem nibbles4_le (d0 d1 d2 d3 : Nat) : nibbles4 d0 d1 d2 d3 ≤ 16665 := by unfold nibbles4; omega

/-- A lane that L1 left fits 8 bits, so L2's mask drops nothing of it (R113). -/
theorem mod256_lane (x y : Nat) : (10 * (x % 16) + y % 16) % 256 = 10 * (x % 16) + y % 16 :=
  Nat.mod_eq_of_lt (by omega)

/-- L1 then L2 on any bytes. -/
theorem swarL2_L1_bytes {d0 d1 d2 d3 d4 d5 d6 d7 : Nat} (h0 : d0 < 256) (h1 : d1 < 256) (h2 : d2 < 256) (h3 : d3 < 256)
    (h4 : d4 < 256) (h5 : d5 < 256) (h6 : d6 < 256) (h7 : d7 < 256) :
    (swarL2 (swarL1 (BitVec.ofNat 64
      (d0 + 256 * (d1 + 256 * (d2 + 256 * (d3 + 256 * (d4 + 256 * (d5 + 256 * (d6 + 256 * d7)))))))))).toNat =
    nibbles4 d0 d1 d2 d3 + 4294967296 * nibbles4 d4 d5 d6 d7 := by
  rw [eq_ofNat_of_toNat (swarL1_bytes h0 h1 h2 h3 h4 h5 h6 h7), swarL2_halves (by omega) (by omega) (by omega) (by omega)]
  rw [mod256_lane, mod256_lane, mod256_lane, mod256_lane]
  unfold nibbles4; ring

/-- L1, L2, L3 on any bytes. -/
theorem swarL3_L2_L1_bytes {d0 d1 d2 d3 d4 d5 d6 d7 : Nat} (h0 : d0 < 256) (h1 : d1 < 256) (h2 : d2 < 256) (h3 : d3 < 256)
    (h4 : d4 < 256) (h5 : d5 < 256) (h6 : d6 < 256) (h7 : d7 < 256) :
    (swarL3 (swarL2 (swarL1 (BitVec.ofNat 64
      (d0 + 256 * (d1 + 256 * (d2 + 256 * (d3 + 256 * (d4 + 256 * (d5 + 256 * (d6 + 256 * d7))))))))))).toNat =
    10000 * nibbles4 d0 d1 d2 d3 + nibbles4 d4 d5 d6 d7 := by
  have l0 := nibbles4_le d0 d1 d2 d3
  have l1 := nibbles4_le d4 d5 d6 d7
  rw [eq_ofNat_of_toNat (swarL2_L1_bytes h0 h1 h2 h3 h4 h5 h6 h7), swarL3_words (by omega) (by omega),
    Nat.mod_eq_of_lt (by omega), Nat.mod_eq_of_lt (by omega)]

/-- BT8's datapath on eight digits gives their value (R121). -/
theorem swar8_digits {bs : List Byte} (hl : bs.length = 8) (hd : allDigits bs = true) :
    swarL3 (swarL2 (swarL1 (BitVec.ofNat 64 (littleEndian bs)))) = BitVec.ofNat 64 (decimalValue bs) := by
  match bs, hl with
  | [b0, b1, b2, b3, b4, b5, b6, b7], _ =>
    have hlt := decimalValue_lt hd
    simp only [allDigits_cons, Bool.and_eq_true] at hd
    obtain ⟨h0, h1, h2, h3, h4, h5, h6, h7, -⟩ := hd
    have e := swarL3_L2_L1_bytes b0.isLt b1.isLt b2.isLt b3.isLt b4.isLt b5.isLt b6.isLt b7.isLt
    refine BitVec.eq_of_toNat_eq ?_
    rw [BitVec.toNat_ofNat (w := 64) (x := decimalValue _), Nat.mod_eq_of_lt (hlt.trans (by norm_num))]
    simp only [littleEndian, Nat.mul_zero, Nat.add_zero, show (2 : Nat) ^ 8 = 256 by norm_num] at e ⊢
    rw [e]
    simp only [nibbles4, digit_nibble h0, digit_nibble h1, digit_nibble h2, digit_nibble h3, digit_nibble h4,
      digit_nibble h5, digit_nibble h6, digit_nibble h7, decimalValue, List.length_cons, List.length_nil]
    ring

/-- BT4's datapath on four digits gives their value (R121). -/
theorem swar4_digits {bs : List Byte} (hl : bs.length = 4) (hd : allDigits bs = true) :
    swarL2 (swarL1 (BitVec.ofNat 64 (littleEndian bs))) = BitVec.ofNat 64 (decimalValue bs) := by
  match bs, hl with
  | [b0, b1, b2, b3], _ =>
    have hlt := decimalValue_lt hd
    simp only [allDigits_cons, Bool.and_eq_true] at hd
    obtain ⟨h0, h1, h2, h3, -⟩ := hd
    have e := swarL2_L1_bytes b0.isLt b1.isLt b2.isLt b3.isLt (d4 := 0) (d5 := 0) (d6 := 0) (d7 := 0) (by norm_num)
      (by norm_num) (by norm_num) (by norm_num)
    refine BitVec.eq_of_toNat_eq ?_
    rw [BitVec.toNat_ofNat (w := 64) (x := decimalValue _), Nat.mod_eq_of_lt (hlt.trans (by norm_num))]
    simp only [littleEndian, Nat.mul_zero, Nat.add_zero, show (2 : Nat) ^ 8 = 256 by norm_num] at e ⊢
    rw [e]
    simp only [nibbles4, digit_nibble h0, digit_nibble h1, digit_nibble h2, digit_nibble h3, Nat.zero_mod, decimalValue,
      List.length_cons, List.length_nil]
    ring

/-- `high * 10^8 + low` on two halves of eight digits each (R117, R148). -/
theorem scale_k8_join {bs cs : List Byte} (hc : cs.length = 8) :
    scale (BitVec.ofNat 64 (decimalValue bs)) .k8 + BitVec.ofNat 64 (decimalValue cs) =
      BitVec.ofNat 64 (decimalValue (bs ++ cs)) := by
  rw [decimalValue_append, hc, scale, Scale.const, BitVec.ofNat_add, BitVec.ofNat_mul]
  rfl

/-- LOAD of a readable range. -/
theorem loadPacked_ok {s : State} {a n : Nat} (h : s.Readable a n) :
    loadPacked s a n = .ok (BitVec.ofNat 64 (littleEndian (bytesAt s a n))) := by
  rw [loadPacked, memRead_ok h]

theorem loadPacked_error {s : State} {a n k : Nat} (h : s.FirstUnreadable a n k) : loadPacked s a n = .error (a + k) := by
  rw [loadPacked, memRead_error h]

/-- A kernel answers a value for a readable footprint, which is `decimalValue` of digits. -/
def KernelOk (n : Nat) (kernel : State → Nat → Transients → Except Nat (Word × Transients)) : Prop :=
  ∀ (s : State) (a : Nat) (t : Transients), s.Readable a n →
    ∃ v t', kernel s a t = .ok (v, t') ∧ t'.acc = t.acc ∧ t'.pos = t.pos ∧ t'.rem = t.rem ∧
      (allDigits (bytesAt s a n) = true → v = BitVec.ofNat 64 (decimalValue (bytesAt s a n)))

/-- A kernel answers the lowest address of its footprint that cannot be read. -/
def KernelFaults (n : Nat) (kernel : State → Nat → Transients → Except Nat (Word × Transients)) : Prop :=
  ∀ (s : State) (a : Nat) (t : Transients) (k : Nat), s.FirstUnreadable a n k → kernel s a t = .error (a + k)

theorem bt4_ok : KernelOk 4 bt4 := fun s a t h => by
  rw [bt4, loadPacked_ok h]
  exact ⟨_, _, rfl, rfl, rfl, rfl, fun hd => swar4_digits (bytesAt_length h) hd⟩

theorem bt4_faults : KernelFaults 4 bt4 := fun s a t k h => by rw [bt4, loadPacked_error h]

theorem bt8_ok : KernelOk 8 bt8 := fun s a t h => by
  rw [bt8, loadPacked_ok h]
  exact ⟨_, _, rfl, rfl, rfl, rfl, fun hd => swar8_digits (bytesAt_length h) hd⟩

theorem bt8_faults : KernelFaults 8 bt8 := fun s a t k h => by rw [bt8, loadPacked_error h]

theorem bt16_ok : KernelOk 16 bt16 := fun s a t h => by
  have h0 : s.Readable a 8 := h.mono (by norm_num)
  have h1 : s.Readable (a + 8) 8 := h.shift (by norm_num)
  rw [bt16, loadPacked_ok h0, loadPacked_ok h1]
  refine ⟨_, _, rfl, rfl, rfl, rfl, fun hd => ?_⟩
  rw [show 16 = 8 + 8 by rfl, bytesAt_add] at hd ⊢
  rw [allDigits_append, Bool.and_eq_true] at hd
  rw [swar8_digits (bytesAt_length h0) hd.1, swar8_digits (bytesAt_length h1) hd.2, scale_k8_join (bytesAt_length h1)]

theorem bt16_faults : KernelFaults 16 bt16 := fun s a t k ⟨hk, hn, hr⟩ => by
  by_cases h8 : k < 8
  · rw [bt16, loadPacked_error ⟨h8, hn, hr⟩]
  · have h0 : s.Readable a 8 := hr.mono (by omega)
    have h1 : s.FirstUnreadable (a + 8) 8 (k - 8) :=
      ⟨by omega, by rwa [show a + 8 + (k - 8) = a + k by omega], hr.shift (by omega)⟩
    rw [bt16, loadPacked_ok h0, loadPacked_error h1]
    simp only [Except.error.injEq]; omega

end Sys2Proof.Machine
end

