-- ==== Sys2Proof/Laws/Vector.lean ====
section
/-! SUPPORT. The lanes of VL, the vector pipeline on digits (41_vector_kernel.md R153, R156), and what VK8 and VK16
answer. -/

namespace Sys2Proof.Machine

theorem joinLanes_lt (w : Nat) (xs : List Nat) : joinLanes w xs < 2 ^ (w * xs.length) := by
  induction xs with
  | nil => simp [joinLanes]
  | cons x xs ih =>
    have h1 : x % 2 ^ w < 2 ^ w := Nat.mod_lt _ (by positivity)
    have h2 := Nat.mul_le_mul_left (2 ^ w) (Nat.succ_le_of_lt ih)
    rw [joinLanes, List.length_cons, Nat.mul_succ, Nat.add_comm (w * xs.length), Nat.pow_add]
    rw [Nat.succ_eq_add_one, Nat.mul_add] at h2
    omega

theorem joinLanes_append (w : Nat) (xs ys : List Nat) :
    joinLanes w (xs ++ ys) = joinLanes w xs + 2 ^ (w * xs.length) * joinLanes w ys := by
  induction xs with
  | nil => simp [joinLanes]
  | cons x xs ih =>
    rw [List.cons_append, joinLanes, joinLanes, ih, List.length_cons, Nat.mul_succ, Nat.add_comm (w * xs.length),
      Nat.pow_add]
    ring

theorem joinLanes_lane (w : Nat) (xs : List Nat) (i : Nat) (hi : i < xs.length) :
    joinLanes w xs / 2 ^ (w * i) % 2 ^ w = xs[i] % 2 ^ w := by
  induction xs generalizing i with
  | nil => simp at hi
  | cons x xs ih =>
    have hx : x % 2 ^ w < 2 ^ w := Nat.mod_lt _ (by positivity)
    cases i with
    | zero => simp [joinLanes]
    | succ i =>
      rw [joinLanes, Nat.mul_succ, Nat.add_comm (w * i), Nat.pow_add, ← Nat.div_div_eq_div_mul,
        Nat.add_mul_div_left _ _ (by positivity), Nat.div_eq_of_lt hx, Nat.zero_add, ih i (by simpa using hi)]
      rfl

theorem lane_eq (w i : Nat) (v : VecReg) : lane w i v = v.toNat / 2 ^ (w * i) % 2 ^ w := by
  rw [lane, BitVec.extractLsb'_toNat, Nat.shiftRight_eq_div_pow]

/-- A lane of a register made of lanes is the value put there, truncated to the lane. -/
theorem lane_ofLanes {w : Nat} {xs : List Nat} {i : Nat} (hw : w * xs.length ≤ 128) (hi : i < xs.length) :
    lane w i (ofLanes w xs) = xs[i] % 2 ^ w := by
  have h := joinLanes_lt w xs
  have h2 : 2 ^ (w * xs.length) ≤ 2 ^ 128 := Nat.pow_le_pow_right (by norm_num) hw
  rw [lane_eq, ofLanes, BitVec.toNat_ofNat, Nat.mod_eq_of_lt (h.trans_le h2), joinLanes_lane w xs i hi]

/-- The lanes of a 64-bit word made of lanes. -/
theorem word_lane {w n i : Nat} {xs : List Nat} (hw : w * xs.length ≤ 64) (hi : i < xs.length) (hn : n = w * i) :
    ((BitVec.ofNat 64 (joinLanes w xs)).extractLsb' n w).toNat = xs[i] % 2 ^ w := by
  have h := joinLanes_lt w xs
  have h2 : 2 ^ (w * xs.length) ≤ 2 ^ 64 := Nat.pow_le_pow_right (by norm_num) hw
  rw [BitVec.extractLsb'_toNat, Nat.shiftRight_eq_div_pow, BitVec.toNat_ofNat, Nat.mod_eq_of_lt (h.trans_le h2), hn,
    joinLanes_lane w xs i hi]

/-- Every word is made of eight bytes. -/
theorem word_bytes (w : Word) : ∃ d0 d1 d2 d3 d4 d5 d6 d7 : Nat, d0 < 256 ∧ d1 < 256 ∧ d2 < 256 ∧ d3 < 256 ∧ d4 < 256 ∧
    d5 < 256 ∧ d6 < 256 ∧ d7 < 256 ∧ w = BitVec.ofNat 64 (joinLanes 8 [d0, d1, d2, d3, d4, d5, d6, d7]) := by
  have hw := w.isLt
  refine ⟨w.toNat % 256, w.toNat / 2 ^ 8 % 256, w.toNat / 2 ^ 16 % 256, w.toNat / 2 ^ 24 % 256, w.toNat / 2 ^ 32 % 256,
    w.toNat / 2 ^ 40 % 256, w.toNat / 2 ^ 48 % 256, w.toNat / 2 ^ 56 % 256, by omega, by omega, by omega, by omega, by omega,
    by omega, by omega, by omega, eq_ofNat_of_toNat ?_⟩
  simp only [joinLanes]
  omega

theorem joinLanes_bytes {d0 d1 d2 d3 d4 d5 d6 d7 : Nat} (h0 : d0 < 256) (h1 : d1 < 256) (h2 : d2 < 256) (h3 : d3 < 256)
    (h4 : d4 < 256) (h5 : d5 < 256) (h6 : d6 < 256) (h7 : d7 < 256) : joinLanes 8 [d0, d1, d2, d3, d4, d5, d6, d7] =
      d0 + 256 * (d1 + 256 * (d2 + 256 * (d3 + 256 * (d4 + 256 * (d5 + 256 * (d6 + 256 * d7)))))) := by
  simp only [joinLanes]; omega

theorem joinLanes_halves {d0 d1 d2 d3 : Nat} (h0 : d0 < 65536) (h1 : d1 < 65536) (h2 : d2 < 65536) (h3 : d3 < 65536) :
    joinLanes 16 [d0, d1, d2, d3] = d0 + 65536 * (d1 + 65536 * (d2 + 65536 * d3)) := by
  simp only [joinLanes]; omega

theorem littleEndian_eq_joinLanes (bs : List Byte) : littleEndian bs = joinLanes 8 (bs.map BitVec.toNat) := by
  induction bs with
  | nil => rfl
  | cons b bs ih => rw [littleEndian, List.map_cons, joinLanes, ih, Nat.mod_eq_of_lt b.isLt]

/-- The register V.LOAD8DUP fills holds the eight bytes twice. -/
theorem dup_eq_ofLanes {bs : List Byte} (hl : bs.length = 8) :
    BitVec.ofNat 64 (littleEndian bs) ++ BitVec.ofNat 64 (littleEndian bs) =
      ofLanes 8 (bs.map BitVec.toNat ++ bs.map BitVec.toNat) := by
  have h := littleEndian_lt bs
  rw [hl] at h
  refine BitVec.eq_of_toNat_eq ?_
  rw [ofLanes, joinLanes_append, ← littleEndian_eq_joinLanes, List.length_map, hl, BitVec.toNat_append,
    BitVec.toNat_ofNat, BitVec.toNat_ofNat, Nat.mod_eq_of_lt h, ← Nat.shiftLeft_add_eq_or_of_lt h, Nat.shiftLeft_eq,
    Nat.mod_eq_of_lt (by omega)]
  ring

/-- V.BIAS lane by lane (R143). -/
theorem vBias_ofLanes {xs : List Nat} (hl : xs.length = 16) :
    vBias (ofLanes 8 xs) = ofLanes 8 (xs.map fun x => (x % 256 + 0xD0) % 256) := by
  rw [vBias]
  congr 1
  refine List.ext_getElem (by simp [hl]) fun i h1 h2 => ?_
  have hi : i < xs.length := by simpa using h2
  simp [lane_ofLanes (w := 8) (xs := xs) (by omega) hi]

/-- `mul` times each even member plus the odd one after it. -/
def pairSums (mul : Nat) : List Nat → List Nat
  | x :: y :: r => (mul * x + 1 * y) :: pairSums mul r
  | _ => []

theorem pairSums_length (mul : Nat) : ∀ (n : Nat) (xs : List Nat), xs.length = 2 * n → (pairSums mul xs).length = n
  | 0, [], _ => rfl
  | n + 1, x :: y :: r, h => by
    simp only [pairSums, List.length_cons]
    rw [pairSums_length mul n r (by simp only [List.length_cons] at h; omega)]
  | n + 1, [_], h => by simp only [List.length_cons, List.length_nil] at h; omega

theorem pairSums_getElem (mul : Nat) :
    ∀ (xs : List Nat) (j : Nat) (h1 : 2 * j + 1 < xs.length) (h2 : j < (pairSums mul xs).length),
      (pairSums mul xs)[j] = mul * xs[2 * j] + 1 * xs[2 * j + 1]
  | x :: y :: r, 0, _, _ => rfl
  | x :: y :: r, j + 1, h1, h2 => by
    simp only [List.length_cons] at h1
    have := pairSums_getElem mul r j (by omega) (by simpa [pairSums] using h2)
    simpa [pairSums, show 2 * (j + 1) = 2 * j + 1 + 1 by ring] using this
  | [_], j, h1, _ => by simp at h1
  | [], j, h1, _ => by simp at h1

/-- A multiply-add on lanes in its stated range (R144, R145, R147). -/
theorem vMadd_ofLanes (op : LaneOp) {w count mul top : Nat} {xs : List Nat} (hl : xs.length = 2 * count)
    (hw : w * xs.length ≤ 128) (htop : top < 2 ^ w) (hx : ∀ x ∈ xs, x ≤ top) :
    vMadd op w count mul top (ofLanes w xs) = ofLanes (2 * w) (pairSums mul xs) := by
  rw [vMadd]
  congr 1
  refine List.ext_getElem (by simp [pairSums_length mul count xs hl]) fun j h1 h2 => ?_
  have hj : j < count := by simpa using h1
  have e0 := lane_ofLanes (w := w) (xs := xs) (i := 2 * j) hw (by omega)
  have e1 := lane_ofLanes (w := w) (xs := xs) (i := 2 * j + 1) hw (by omega)
  have l0 := hx _ (List.getElem_mem (l := xs) (n := 2 * j) (by omega))
  have l1 := hx _ (List.getElem_mem (l := xs) (n := 2 * j + 1) (by omega))
  rw [Nat.mod_eq_of_lt (by omega)] at e0 e1
  rw [List.getElem_map, List.getElem_range, e0, e1, if_pos ⟨l0, l1⟩, pairSums_getElem mul xs j (by omega) h2]

/-- V.PACK on lanes in its stated range (R146). -/
theorem vPack_ofLanes {s0 s1 s2 s3 : Nat} (h0 : s0 ≤ 9999) (h1 : s1 ≤ 9999) (h2 : s2 ≤ 9999) (h3 : s3 ≤ 9999) :
    vPack (ofLanes 32 [s0, s1, s2, s3]) = ofLanes 16 [s0, s1, s2, s3, s0, s1, s2, s3] := by
  have e : ∀ i (hi : i < [s0, s1, s2, s3].length), lane 32 i (ofLanes 32 [s0, s1, s2, s3]) = [s0, s1, s2, s3][i] % 2 ^ 32 :=
    fun i hi => lane_ofLanes (by simp) hi
  have e0 := e 0 (by simp); have e1 := e 1 (by simp); have e2 := e 2 (by simp); have e3 := e 3 (by simp)
  simp only [List.getElem_cons_zero, List.getElem_cons_succ] at e0 e1 e2 e3
  rw [Nat.mod_eq_of_lt (by omega)] at e0 e1 e2 e3
  rw [vPack, show List.range 4 = [0, 1, 2, 3] by rfl]
  simp only [List.map_cons, List.map_nil, sat16, e0, e1, e2, e3, h0, h1, h2, h3, if_true]
  rfl

/-- V.BIAS in one lane of any register (R143). -/
theorem vBias_lane (v : VecReg) {i : Nat} (hi : i < 16) : lane 8 i (vBias v) = (lane 8 i v + 0xD0) % 256 := by
  rw [vBias, lane_ofLanes (by simp) (by simpa using hi), List.getElem_map, List.getElem_range]
  omega

/-- A multiply-add in one lane of any register, where the two operands of that lane lie in the stated range. -/
theorem vMadd_lane {op : LaneOp} {w count mul top j : Nat} {v : VecReg} (hw : 2 * w * count ≤ 128) (hj : j < count)
    (h0 : lane w (2 * j) v ≤ top) (h1 : lane w (2 * j + 1) v ≤ top) (hb : mul * top + top < 2 ^ (2 * w)) :
    lane (2 * w) j (vMadd op w count mul top v) = mul * lane w (2 * j) v + 1 * lane w (2 * j + 1) v := by
  rw [vMadd, lane_ofLanes (by simpa using hw) (by simpa using hj), List.getElem_map, List.getElem_range, if_pos ⟨h0, h1⟩]
  have := Nat.mul_le_mul_left mul h0
  exact Nat.mod_eq_of_lt (by omega)

/-- V.PACK puts one in-range lane of any register in both halves (R146). -/
theorem vPack_lane {v : VecReg} {k : Nat} (hk : k < 4) (h : lane 32 k v ≤ 9999) :
    lane 16 k (vPack v) = lane 32 k v ∧ lane 16 (k + 4) (vPack v) = lane 32 k v := by
  constructor
  · rw [vPack, lane_ofLanes (by simp) (by simp; omega), List.getElem_append_left (by simpa using hk), List.getElem_map,
      List.getElem_range, sat16, if_pos h]
    omega
  · rw [vPack, lane_ofLanes (by simp) (by simp; omega), List.getElem_append_right (by simp), List.getElem_map]
    simp only [List.length_map, List.length_range, Nat.add_sub_cancel, List.getElem_range, sat16, if_pos h]
    omega

/-- V.FOLD in its stated range (R148). -/
theorem vFold_in_range {v : VecReg} (h0 : lane 32 0 v ≤ 99999999) (h1 : lane 32 1 v ≤ 99999999) :
    vFold v = scale (BitVec.ofNat 64 (lane 32 0 v)) .k8 + BitVec.ofNat 64 (lane 32 1 v) := if_pos ⟨h0, h1⟩

/-- The value of four digits. -/
def value4 (d0 d1 d2 d3 : Nat) : Nat := 100 * (10 * d0 + 1 * d1) + 1 * (10 * d2 + 1 * d3)

/-- V.BIAS to V.MADD3 on sixteen digit bytes (R153, R156): the two halves' values, and copies of them. -/
theorem vPipeline_digits {d0 d1 d2 d3 d4 d5 d6 d7 d8 d9 d10 d11 d12 d13 d14 d15 : Nat}
    (h : ∀ d ∈ [d0, d1, d2, d3, d4, d5, d6, d7, d8, d9, d10, d11, d12, d13, d14, d15], d ≤ 9) :
    vPipeline (ofLanes 8 ([d0, d1, d2, d3, d4, d5, d6, d7, d8, d9, d10, d11, d12, d13, d14, d15].map (48 + ·))) =
      ofLanes 32 [10000 * value4 d0 d1 d2 d3 + 1 * value4 d4 d5 d6 d7, 10000 * value4 d8 d9 d10 d11 + 1 * value4 d12 d13 d14 d15,
        10000 * value4 d0 d1 d2 d3 + 1 * value4 d4 d5 d6 d7, 10000 * value4 d8 d9 d10 d11 + 1 * value4 d12 d13 d14 d15] := by
  have hb : (([d0, d1, d2, d3, d4, d5, d6, d7, d8, d9, d10, d11, d12, d13, d14, d15].map (48 + ·)).map
      fun x => (x % 256 + 0xD0) % 256) = [d0, d1, d2, d3, d4, d5, d6, d7, d8, d9, d10, d11, d12, d13, d14, d15] := by
    rw [List.map_map]
    refine List.map_congr_left (g := id) (fun d hd => ?_) |>.trans (List.map_id _)
    have := h d hd
    simp only [Function.comp_apply, id_eq]; omega
  have h1 : vMadd1 (ofLanes 8 [d0, d1, d2, d3, d4, d5, d6, d7, d8, d9, d10, d11, d12, d13, d14, d15]) = _ :=
    vMadd_ofLanes .madd1 (w := 8) (mul := 10) (top := 9) (by rfl) (by simp) (by norm_num) h
  simp only [List.mem_cons, List.not_mem_nil, or_false, forall_eq_or_imp, forall_eq] at h
  obtain ⟨l0, l1, l2, l3, l4, l5, l6, l7, l8, l9, l10, l11, l12, l13, l14, l15⟩ := h
  have h2 : vMadd2 (ofLanes 16 (pairSums 10 [d0, d1, d2, d3, d4, d5, d6, d7, d8, d9, d10, d11, d12, d13, d14, d15])) = _ :=
    vMadd_ofLanes .madd2 (w := 16) (mul := 100) (top := 99) (by rfl) (by simp [pairSums]) (by norm_num)
      (by simp only [pairSums, List.mem_cons, List.not_mem_nil, or_false, forall_eq_or_imp, forall_eq]; omega)
  have h3 : vMadd3 (ofLanes 16 [value4 d0 d1 d2 d3, value4 d4 d5 d6 d7, value4 d8 d9 d10 d11, value4 d12 d13 d14 d15,
      value4 d0 d1 d2 d3, value4 d4 d5 d6 d7, value4 d8 d9 d10 d11, value4 d12 d13 d14 d15]) = _ :=
    vMadd_ofLanes .madd3 (w := 16) (mul := 10000) (top := 9999) (by rfl) (by simp) (by norm_num)
      (by simp only [value4, List.mem_cons, List.not_mem_nil, or_false, forall_eq_or_imp, forall_eq]; omega)
  rw [vPipeline, vBias_ofLanes (by simp), hb, h1]
  simp only [show 2 * 8 = 16 by rfl, h2]
  simp only [pairSums, show 2 * 16 = 32 by rfl]
  rw [vPack_ofLanes (by omega) (by omega) (by omega) (by omega)]
  exact h3

/-- A digit byte is 0x30 and its digit. -/
theorem digit_bias {b : Byte} (h : isDigit b = true) : 48 + (b.toNat - 48) = b.toNat := by
  rw [isDigit_iff] at h; omega

theorem digit_le {b : Byte} (h : isDigit b = true) : b.toNat - 48 ≤ 9 := by
  rw [isDigit_iff] at h; omega

/-- The value of eight digits, as the lanes hold it. -/
theorem decimalValue8 (b0 b1 b2 b3 b4 b5 b6 b7 : Byte) : decimalValue [b0, b1, b2, b3, b4, b5, b6, b7] =
    10000 * value4 (b0.toNat - 48) (b1.toNat - 48) (b2.toNat - 48) (b3.toNat - 48) +
      1 * value4 (b4.toNat - 48) (b5.toNat - 48) (b6.toNat - 48) (b7.toNat - 48) := by
  simp only [decimalValue, value4, List.length_cons, List.length_nil]; ring

/-- The two 32-bit lanes that V.FOLD and V.EXTRACT take, for two halves of eight digit bytes each. -/
theorem vPipeline_lanes {bs cs : List Byte} (hb : bs.length = 8) (hc : cs.length = 8) (hbd : allDigits bs = true)
    (hcd : allDigits cs = true) :
    lane 32 0 (vPipeline (ofLanes 8 (bs.map BitVec.toNat ++ cs.map BitVec.toNat))) = decimalValue bs ∧
      lane 32 1 (vPipeline (ofLanes 8 (bs.map BitVec.toNat ++ cs.map BitVec.toNat))) = decimalValue cs := by
  have lb := decimalValue_lt hbd
  have lc := decimalValue_lt hcd
  rw [hb] at lb
  rw [hc] at lc
  match bs, hb, cs, hc with
  | [b0, b1, b2, b3, b4, b5, b6, b7], _, [c0, c1, c2, c3, c4, c5, c6, c7], _ =>
    simp only [allDigits_cons, Bool.and_eq_true] at hbd hcd
    obtain ⟨h0, h1, h2, h3, h4, h5, h6, h7, -⟩ := hbd
    obtain ⟨k0, k1, k2, k3, k4, k5, k6, k7, -⟩ := hcd
    have e := vPipeline_digits (d0 := b0.toNat - 48) (d1 := b1.toNat - 48) (d2 := b2.toNat - 48) (d3 := b3.toNat - 48)
      (d4 := b4.toNat - 48) (d5 := b5.toNat - 48) (d6 := b6.toNat - 48) (d7 := b7.toNat - 48) (d8 := c0.toNat - 48)
      (d9 := c1.toNat - 48) (d10 := c2.toNat - 48) (d11 := c3.toNat - 48) (d12 := c4.toNat - 48) (d13 := c5.toNat - 48)
      (d14 := c6.toNat - 48) (d15 := c7.toNat - 48)
      (by simp only [List.mem_cons, List.not_mem_nil, or_false, forall_eq_or_imp, forall_eq, digit_le h0, digit_le h1,
            digit_le h2, digit_le h3, digit_le h4, digit_le h5, digit_le h6, digit_le h7, digit_le k0, digit_le k1,
            digit_le k2, digit_le k3, digit_le k4, digit_le k5, digit_le k6, digit_le k7, and_self])
    simp only [List.map_cons, List.map_nil, digit_bias h0, digit_bias h1, digit_bias h2, digit_bias h3, digit_bias h4,
      digit_bias h5, digit_bias h6, digit_bias h7, digit_bias k0, digit_bias k1, digit_bias k2, digit_bias k3,
      digit_bias k4, digit_bias k5, digit_bias k6, digit_bias k7, ← decimalValue8] at e
    simp only [List.map_cons, List.map_nil, List.cons_append, List.nil_append]
    rw [e]
    constructor
    · rw [lane_ofLanes (by simp) (by simp)]
      exact Nat.mod_eq_of_lt (lb.trans (by norm_num))
    · rw [lane_ofLanes (by simp) (by simp)]
      exact Nat.mod_eq_of_lt (lc.trans (by norm_num))

theorem vk16_ok : KernelOk 16 vk16 := fun s a t h => by
  have h0 : s.Readable a 8 := h.mono (by norm_num)
  have h1 : s.Readable (a + 8) 8 := h.shift (by norm_num)
  rw [vk16, vLoad16, memRead_ok h]
  refine ⟨_, _, rfl, rfl, rfl, rfl, fun hd => ?_⟩
  rw [show 16 = 8 + 8 by rfl, bytesAt_add] at hd ⊢
  rw [allDigits_append, Bool.and_eq_true] at hd
  obtain ⟨e0, e1⟩ := vPipeline_lanes (bytesAt_length h0) (bytesAt_length h1) hd.1 hd.2
  have l0 := decimalValue_lt hd.1
  have l1 := decimalValue_lt hd.2
  rw [bytesAt_length h0] at l0
  rw [bytesAt_length h1] at l1
  rw [littleEndian_eq_joinLanes, List.map_append, ← ofLanes, vFold_in_range (by omega) (by omega), e0, e1,
    scale_k8_join (bytesAt_length h1)]

theorem vk16_faults : KernelFaults 16 vk16 := fun s a t k h => by rw [vk16, vLoad16, memRead_error h]

theorem vk8_ok : KernelOk 8 vk8 := fun s a t h => by
  rw [vk8, vLoad8Dup, memRead_ok h]
  refine ⟨_, _, rfl, rfl, rfl, rfl, fun hd => ?_⟩
  have hl := bytesAt_length h
  rw [dup_eq_ofLanes hl, (vPipeline_lanes hl hl hd hd).1]

theorem vk8_faults : KernelFaults 8 vk8 := fun s a t k h => by rw [vk8, vLoad8Dup, memRead_error h]

end Sys2Proof.Machine
end

