-- ==== Sys2Proof/Laws/Composer.lean ====
section
/-! SUPPORT. What the composer answers (42_composer.md R180, R184, R185): each stage carries its progress through the
string one chunk further, or answers the lowest unreadable address. -/

namespace Sys2Proof.Machine

theorem kernel16_ok : KernelOk 16 kernel16 := fun s a t h => by
  rw [kernel16]
  cases s.tier
  · exact bt16_ok s a t h
  · exact vk16_ok s a t h
  · exact vk16_ok s a t h

theorem kernel16_faults : KernelFaults 16 kernel16 := fun s a t k h => by
  rw [kernel16]
  cases s.tier
  · exact bt16_faults s a t k h
  · exact vk16_faults s a t k h
  · exact vk16_faults s a t k h

theorem kernel8_ok : KernelOk 8 kernel8 := fun s a t h => by
  rw [kernel8]
  cases s.tier
  · exact bt8_ok s a t h
  · exact vk8_ok s a t h
  · exact vk8_ok s a t h

theorem kernel8_faults : KernelFaults 8 kernel8 := fun s a t k h => by
  rw [kernel8]
  cases s.tier
  · exact bt8_faults s a t k h
  · exact vk8_faults s a t k h
  · exact vk8_faults s a t k h

theorem kernel4_ok : KernelOk 4 kernel4 := bt4_ok

theorem kernel4_faults : KernelFaults 4 kernel4 := bt4_faults

/-- All a kernel does to the transients: it answers an unreadable address, or a value with ACC and the cursor as they were. -/
def KernelKeepsCursor (kernel : State → Nat → Transients → Except Nat (Word × Transients)) : Prop :=
  ∀ s a t, (∃ f, kernel s a t = .error f) ∨
    ∃ v t', kernel s a t = .ok (v, t') ∧ t'.acc = t.acc ∧ t'.pos = t.pos ∧ t'.rem = t.rem

theorem kernel4_keepsCursor : KernelKeepsCursor kernel4 := fun s a t => by
  simp only [kernel4, bt4]
  split
  · exact .inl ⟨_, rfl⟩
  · exact .inr ⟨_, _, rfl, rfl, rfl, rfl⟩

theorem kernel8_keepsCursor : KernelKeepsCursor kernel8 := fun s a t => by
  cases h : s.tier <;> simp only [kernel8, h, bt8, vk8] <;> split <;>
    first | exact .inl ⟨_, rfl⟩ | exact .inr ⟨_, _, rfl, rfl, rfl, rfl⟩

theorem kernel16_keepsCursor : KernelKeepsCursor kernel16 := fun s a t => by
  cases h : s.tier <;> simp only [kernel16, h, bt16, vk16] <;> split <;> (try split) <;>
    first | exact .inl ⟨_, rfl⟩ | exact .inr ⟨_, _, rfl, rfl, rfl, rfl⟩

/-- The composer has consumed `c` of the `n` bytes at `a`: the cursor stands after them, and ACC is their value where they
are digits (R180). -/
structure Progress (s : State) (a n c : Nat) (t : Transients) : Prop where
  le : c ≤ n
  pos : t.pos = a + c
  rem : t.rem.toNat = n - c
  acc : allDigits (bytesAt s a c) = true → t.acc = BitVec.ofNat 64 (decimalValue (bytesAt s a c))

theorem Progress.init (s : State) (a : Nat) (len : BitVec 5) (t : Transients) :
    Progress s a len.toNat 0 (stageInit a len t) :=
  ⟨Nat.zero_le _, rfl, rfl, fun _ => rfl⟩

/-- The cursor after `w` more bytes. -/
theorem advance_rem {t : Transients} {w : Nat} (hw : w ≤ t.rem.toNat) :
    (advance w t).rem.toNat = t.rem.toNat - w := by
  have := t.rem.isLt
  simp only [advance, BitVec.toNat_sub, BitVec.toNat_ofNat]
  omega

/-- One chunk more, folded with the power of ten of its width. -/
theorem Progress.fold {s : State} {a n c w : Nat} {t t' : Transients} {k : Scale} {v : Word}
    (hp : Progress s a n c t) (hk : k.const = BitVec.ofNat 64 (10 ^ w)) (hw : w ≤ n - c) (hr : s.Readable a (c + w))
    (h1 : t'.acc = t.acc) (h2 : t'.pos = t.pos) (h3 : t'.rem = t.rem)
    (hv : allDigits (bytesAt s (a + c) w) = true → v = BitVec.ofNat 64 (decimalValue (bytesAt s (a + c) w))) :
    Progress s a n (c + w) (advance w (foldAcc k v t')) := by
  have hrem : (foldAcc k v t').rem.toNat = n - c := by rw [show (foldAcc k v t').rem = t'.rem by rfl, h3, hp.rem]
  refine ⟨by have := hp.le; omega, ?_, ?_, fun hd => ?_⟩
  · rw [show (advance w (foldAcc k v t')).pos = t'.pos + w by rfl, h2, hp.pos]; omega
  · rw [advance_rem (by omega), hrem]; omega
  · rw [bytesAt_add, allDigits_append, Bool.and_eq_true] at hd
    rw [show (advance w (foldAcc k v t')).acc = scale t'.acc k + v by rfl, h1, hp.acc hd.1, hv hd.2, bytesAt_add,
      decimalValue_append, bytesAt_length (hr.shift (by omega)), scale, hk, BitVec.ofNat_add, BitVec.ofNat_mul]

theorem Readable.chunk {s : State} {a c w : Nat} (h : s.Readable a (c + w)) : s.Readable (a + c) w :=
  h.shift (by omega)

/-- The lowest unreadable address of the string, seen from a chunk that contains it. -/
theorem State.FirstUnreadable.chunk {s : State} {a n c w k : Nat} (h : s.FirstUnreadable a n k) (hc : c ≤ k) (hw : k < c + w) :
    s.FirstUnreadable (a + c) w (k - c) :=
  ⟨by omega, by rw [show a + c + (k - c) = a + k by omega]; exact h.2.1, h.2.2.shift (by omega)⟩

theorem stageS8_ok {s : State} {a n c : Nat} {t : Transients} (hp : Progress s a n c t) (hw : 8 ≤ n - c)
    (hr : s.Readable a (c + 8)) : ∃ t', stageS8 s t = .ok t' ∧ Progress s a n (c + 8) t' := by
  obtain ⟨v, t', hk, h1, h2, h3, hv⟩ := kernel8_ok s (a + c) t (Readable.chunk hr)
  refine ⟨_, ?_, hp.fold (k := .k8) (v := v) (t' := t') rfl hw hr h1 h2 h3 hv⟩
  rw [stageS8, if_pos (by rw [hp.rem]; exact hw), hp.pos, hk]

theorem stageS4_ok {s : State} {a n c : Nat} {t : Transients} (hp : Progress s a n c t) (hw : 4 ≤ n - c)
    (hr : s.Readable a (c + 4)) : ∃ t', stageS4 s t = .ok t' ∧ Progress s a n (c + 4) t' := by
  obtain ⟨v, t', hk, h1, h2, h3, hv⟩ := kernel4_ok s (a + c) t (Readable.chunk hr)
  refine ⟨_, ?_, hp.fold (k := .k4) (v := v) (t' := t') rfl hw hr h1 h2 h3 hv⟩
  rw [stageS4, if_pos (by rw [hp.rem]; exact hw), hp.pos, hk]

theorem stageS16_ok {s : State} {a n : Nat} {t : Transients} (hp : Progress s a n 0 t) (hw : 16 ≤ n)
    (hr : s.Readable a 16) : ∃ t', stageS16 s t = .ok t' ∧ Progress s a n 16 t' := by
  obtain ⟨v, t', hk, -, h2, h3, hv⟩ := kernel16_ok s a t hr
  have hrem : t'.rem.toNat = n := by rw [h3, hp.rem]; rfl
  refine ⟨advance 16 { t' with acc := v }, ?_, hw, ?_, ?_, hv⟩
  · rw [stageS16, if_pos (by rw [hp.rem]; exact hw), hp.pos, Nat.add_zero, hk]
  · rw [show (advance 16 { t' with acc := v }).pos = t'.pos + 16 by rfl, h2, hp.pos]
  · rw [advance_rem (by simpa [hrem] using hw)]; exact congrArg (· - 16) hrem

theorem stageS8_skip {s : State} {t : Transients} (h : t.rem.toNat < 8) : stageS8 s t = .ok t := by
  rw [stageS8, if_neg (by omega)]

theorem stageS4_skip {s : State} {t : Transients} (h : t.rem.toNat < 4) : stageS4 s t = .ok t := by
  rw [stageS4, if_neg (by omega)]

theorem stageS16_skip {s : State} {t : Transients} (h : t.rem.toNat < 16) : stageS16 s t = .ok t := by
  rw [stageS16, if_neg (by omega)]

/-- The digit of a digit byte (R177). -/
theorem tailDigit_digit {b : Byte} (h : isDigit b = true) : tailDigit b = BitVec.ofNat 64 (b.toNat - 48) := by
  rw [isDigit_iff] at h
  refine BitVec.eq_of_toNat_eq ?_
  simp only [tailDigit, BitVec.toNat_setWidth, BitVec.toNat_sub, BitVec.toNat_ofNat]
  omega

theorem readable_one {s : State} {a : Nat} (h : s.Readable a 1) : ∃ b, s.readByte a = some b ∧ bytesAt s a 1 = [b] := by
  obtain ⟨b, hb⟩ := Option.isSome_iff_exists.1 (h 0 (by omega))
  rw [Nat.add_zero] at hb
  exact ⟨b, hb, by rw [bytesAt_succ hb, bytesAt_zero]⟩

theorem Progress.t1 {s : State} {a n c : Nat} {t : Transients} {b : Byte} (hp : Progress s a n c t) (hw : 1 ≤ n - c)
    (hr : s.Readable a (c + 1)) (hb : bytesAt s (a + c) 1 = [b]) :
    Progress s a n (c + 1) (advance 1 (foldAcc .k1 (tailDigit b) t)) :=
  hp.fold (k := .k1) (t' := t) rfl hw hr rfl rfl rfl fun hd => by
    rw [hb] at hd ⊢
    rw [allDigits_cons, Bool.and_eq_true] at hd
    rw [tailDigit_digit hd.1]
    simp [decimalValue]

theorem memRead_one {s : State} {a : Nat} {b : Byte} (h : s.readByte a = some b) : memRead s a 1 = .ok b.toNat := by
  simp [memRead, readBytes, h, littleEndian]

theorem stageT1_ok {s : State} {a n : Nat} (hr : s.Readable a n) :
    ∀ (m c : Nat) (t : Transients), Progress s a n c t → m = n - c →
      ∃ t', stageT1 s m t = .ok t' ∧ Progress s a n n t'
  | 0, c, t, hp, hm => ⟨t, rfl, by have := hp.le; rwa [show c = n by omega] at hp⟩
  | m + 1, c, t, hp, hm => by
    obtain ⟨b, hb, hbs⟩ := readable_one (s := s) (a := a + c) (hr.shift (by omega))
    have hp' := hp.t1 (by omega) (hr.mono (by omega)) hbs
    obtain ⟨t', ht, hp''⟩ := stageT1_ok hr m (c + 1) _ hp' (by omega)
    refine ⟨t', ?_, hp''⟩
    simp only [stageT1, hp.pos, memRead_one hb, BitVec.ofNat_toNat, BitVec.setWidth_eq]
    exact ht

theorem stageT1_faults {s : State} {a n k : Nat} (h : s.FirstUnreadable a n k) :
    ∀ (m c : Nat) (t : Transients), Progress s a n c t → m = n - c → c ≤ k → stageT1 s m t = .error (a + k)
  | 0, c, _, _, hm, hc => by have := h.1; omega
  | m + 1, c, t, hp, hm, hc => by
    by_cases hk : k = c
    · subst hk
      have hn : memRead s t.pos 1 = .error (a + k) := by
        rw [hp.pos]; simp [memRead, readBytes, h.2.1]
      rw [stageT1, hn]
    · obtain ⟨b, hb, hbs⟩ := readable_one (s := s) (a := a + c) (h.2.2.shift (by omega))
      have hp' := hp.t1 (by omega) (h.2.2.mono (by omega)) hbs
      have := stageT1_faults h m (c + 1) _ hp' (by omega) (by omega)
      simp only [stageT1, hp.pos, memRead_one hb, BitVec.ofNat_toNat, BitVec.setWidth_eq]
      exact this

/-- S4 and T1 finish a string of which fewer than 8 bytes are left. -/
theorem ladder4_ok {s : State} {a n c : Nat} {t : Transients} (hr : s.Readable a n) (hp : Progress s a n c t) :
    ∃ t3, stageS4 s t = .ok t3 ∧ ∃ t', stageT1 s t3.rem.toNat t3 = .ok t' ∧ Progress s a n n t' := by
  by_cases h4 : 4 ≤ n - c
  · obtain ⟨t3, h, hp3⟩ := stageS4_ok hp h4 (hr.mono (by omega))
    obtain ⟨t', ht, hp'⟩ := stageT1_ok hr _ _ _ hp3 hp3.rem
    exact ⟨t3, h, t', ht, hp'⟩
  · obtain ⟨t', ht, hp'⟩ := stageT1_ok hr _ _ _ hp hp.rem
    exact ⟨t, stageS4_skip (by rw [hp.rem]; omega), t', ht, hp'⟩

/-- The composer over a readable string consumes all of it (R184, R185). -/
theorem compose_ok {s : State} {a : Nat} {len : BitVec 5} (t : Transients) (hr : s.Readable a len.toNat) :
    ∃ t', compose s a len t = .ok t' ∧ Progress s a len.toNat len.toNat t' := by
  have hp := Progress.init s a len t
  have key : ∀ c t1, Progress s a len.toNat c t1 → stageS16 s (stageInit a len t) = .ok t1 →
      ∃ t', compose s a len t = .ok t' ∧ Progress s a len.toNat len.toNat t' := by
    intro c t1 hp1 e1
    by_cases h8 : 8 ≤ len.toNat - c
    · obtain ⟨t2, e2, hp2⟩ := stageS8_ok hp1 h8 (hr.mono (by omega))
      obtain ⟨t3, e3, t', e4, hp'⟩ := ladder4_ok hr hp2
      exact ⟨t', by rw [compose, e1]; simp only [e2, e3, e4], hp'⟩
    · obtain ⟨t3, e3, t', e4, hp'⟩ := ladder4_ok hr hp1
      exact ⟨t', by rw [compose, e1]; simp only [stageS8_skip (s := s) (t := t1) (by rw [hp1.rem]; omega), e3, e4], hp'⟩
  by_cases h16 : 16 ≤ len.toNat
  · obtain ⟨t1, e1, hp1⟩ := stageS16_ok hp h16 (hr.mono h16)
    exact key 16 t1 hp1 e1
  · exact key 0 _ hp (stageS16_skip (by rw [hp.rem]; omega))

theorem ladder4_faults {s : State} {a n c k : Nat} {t : Transients} (h : s.FirstUnreadable a n k) (hp : Progress s a n c t)
    (hc : c ≤ k) : stageS4 s t = .error (a + k) ∨
      ∃ t3, stageS4 s t = .ok t3 ∧ stageT1 s t3.rem.toNat t3 = .error (a + k) := by
  have hk := h.1
  by_cases h4 : 4 ≤ n - c
  · by_cases hin : k < c + 4
    · left
      rw [stageS4, if_pos (by rw [hp.rem]; exact h4), hp.pos, kernel4_faults s (a + c) t _ (h.chunk hc hin)]
      simp only [Except.error.injEq]; omega
    · obtain ⟨t3, e, hp3⟩ := stageS4_ok hp h4 (h.2.2.mono (by omega))
      exact .inr ⟨t3, e, stageT1_faults h _ _ _ hp3 hp3.rem (by omega)⟩
  · exact .inr ⟨t, stageS4_skip (by rw [hp.rem]; omega), stageT1_faults h _ _ _ hp hp.rem hc⟩

/-- The composer answers the lowest unreadable address of the string (R57, R68). -/
theorem compose_faults {s : State} {a k : Nat} {len : BitVec 5} (t : Transients)
    (h : s.FirstUnreadable a len.toNat k) : compose s a len t = .error (a + k) := by
  have hk := h.1
  have hp := Progress.init s a len t
  have key : ∀ c t1, Progress s a len.toNat c t1 → c ≤ k → stageS16 s (stageInit a len t) = .ok t1 →
      compose s a len t = .error (a + k) := by
    intro c t1 hp1 hc e1
    by_cases h8 : 8 ≤ len.toNat - c
    · by_cases hin : k < c + 8
      · have e2 : stageS8 s t1 = .error (a + k) := by
          rw [stageS8, if_pos (by rw [hp1.rem]; exact h8), hp1.pos, kernel8_faults s (a + c) t1 _ (h.chunk hc hin)]
          simp only [Except.error.injEq]; omega
        rw [compose, e1]; simp only [e2]
      · obtain ⟨t2, e2, hp2⟩ := stageS8_ok hp1 h8 (h.2.2.mono (by omega))
        rcases ladder4_faults h hp2 (by omega) with e3 | ⟨t3, e3, e4⟩
        · rw [compose, e1]; simp only [e2, e3]
        · rw [compose, e1]; simp only [e2, e3, e4]
    · have e2 : stageS8 s t1 = .ok t1 := stageS8_skip (by rw [hp1.rem]; omega)
      rcases ladder4_faults h hp1 hc with e3 | ⟨t3, e3, e4⟩
      · rw [compose, e1]; simp only [e2, e3]
      · rw [compose, e1]; simp only [e2, e3, e4]
  by_cases h16 : 16 ≤ len.toNat
  · by_cases hin : k < 16
    · have e1 : stageS16 s (stageInit a len t) = .error (a + k) := by
        rw [stageS16, if_pos (by rw [hp.rem]; exact h16), hp.pos, Nat.add_zero,
          kernel16_faults s a _ k ⟨hin, h.2.1, h.2.2⟩]
      rw [compose, e1]
    · obtain ⟨t1, e1, hp1⟩ := stageS16_ok hp h16 (h.2.2.mono (by omega))
      exact key 16 t1 hp1 (by omega) e1
  · exact key 0 _ hp (Nat.zero_le _) (stageS16_skip (by rw [hp.rem]; omega))

end Sys2Proof.Machine
end

