-- ==== Sys2Proof/Laws/Commands.lean ====
section
/-! SUPPORT. Everything a command and a step can do, said once: the end of a parse command, and the inversion of `exec`
and `step`. -/

namespace Sys2Proof.Machine

@[simp] theorem lockTier_bytesAt (s : State) (a n : Nat) : bytesAt (lockTier s) a n = bytesAt s a n := rfl

theorem lockTier_readable {s : State} {a n : Nat} : (lockTier s).Readable a n ↔ s.Readable a n := Iff.rfl

theorem lockTier_firstUnreadable {s : State} {a n k : Nat} :
    (lockTier s).FirstUnreadable a n k ↔ s.FirstUnreadable a n k := Iff.rfl

/-- What the architected result is when the datapath is right on digits. -/
theorem architected_eq_parseValue {op : ParseOp} {tier : Tier} {bs : List Byte} {v : Word}
    (h : allDigits bs = true → v = BitVec.ofNat 64 (decimalValue bs)) :
    architected op tier bs v = parseValue op tier bs := by
  rw [architected, parseValue]
  split
  · rename_i hd; exact h hd
  · rfl

theorem finishParse_kernel_ok {n : Nat} {kernel : State → Nat → Transients → Except Nat (Word × Transients)}
    (hk : KernelOk n kernel) (op : ParseOp) {s : State} {a : Nat} (t : Transients) (hr : s.Readable a n) :
    finishParse op a n (kernelValue (kernel (lockTier s) a t)) (lockTier s) =
      .next (respond (parseValue op s.tier (bytesAt s a n)) (lockTier s)) := by
  obtain ⟨v, t', e, -, -, -, hv⟩ := hk (lockTier s) a t hr
  rw [e, kernelValue, finishParse, architected_eq_parseValue hv]
  rfl

theorem finishParse_kernel_faults {n : Nat} {kernel : State → Nat → Transients → Except Nat (Word × Transients)}
    (hk : KernelFaults n kernel) (op : ParseOp) {s : State} {a k : Nat} (t : Transients) (h : s.FirstUnreadable a n k) :
    finishParse op a n (kernelValue (kernel (lockTier s) a t)) (lockTier s) =
      .next (raise (.bufferFault (a + k)) (lockTier s)) := by
  rw [hk (lockTier s) a t k h, kernelValue, finishParse]

theorem finishParse_composer_ok {s : State} {a : Nat} {len : BitVec 5} (t : Transients) (hr : s.Readable a len.toNat) :
    finishParse .parseN a len.toNat (composerValue (compose (lockTier s) a len t)) (lockTier s) =
      .next (respond (parseValue .parseN s.tier (bytesAt s a len.toNat)) (lockTier s)) := by
  obtain ⟨t', e, hp⟩ := compose_ok (s := lockTier s) (a := a) (len := len) t hr
  rw [e, composerValue, finishParse, architected_eq_parseValue hp.acc]
  rfl

theorem finishParse_composer_faults {s : State} {a k : Nat} {len : BitVec 5} (t : Transients)
    (h : s.FirstUnreadable a len.toNat k) :
    finishParse .parseN a len.toNat (composerValue (compose (lockTier s) a len t)) (lockTier s) =
      .next (raise (.bufferFault (a + k)) (lockTier s)) := by
  rw [compose_faults (s := lockTier s) t h, composerValue, finishParse]

/-- The name under which `UNSPEC` knows a parse command. -/
def parseOpOf : Instr → ParseOp
  | .setTier _ => .parseN
  | .parse4 _ => .parse4
  | .parse8 _ => .parse8
  | .parse16 _ => .parse16
  | .parseN _ _ => .parseN

theorem parseN_footprint {a : Addr} {len : BitVec 5} (h : 0 < footprint (.parseN a len)) :
    lenOk len = true ∧ len ≠ 0#5 ∧ footprint (.parseN a len) = len.toNat := by
  simp only [footprint] at h ⊢
  split at h
  · rename_i hl
    refine ⟨hl, ?_, if_pos hl⟩
    rintro rfl
    simp at h
  · omega

/-- A parse command over a readable footprint of at least one byte responds with the value of its bytes. -/
theorem exec_parse_ok {i : Instr} {s : State} (hf : 0 < footprint i) (hr : s.Readable (addressOf i) (footprint i)) :
    exec i s = .next (respond (parseValue (parseOpOf i) s.tier (bytesAt s (addressOf i) (footprint i))) (lockTier s)) := by
  cases i with
  | setTier t => simp [footprint] at hf
  | parse4 a => exact finishParse_kernel_ok kernel4_ok .parse4 s.tr hr
  | parse8 a => exact finishParse_kernel_ok kernel8_ok .parse8 s.tr hr
  | parse16 a => exact finishParse_kernel_ok kernel16_ok .parse16 s.tr hr
  | parseN a len =>
    obtain ⟨h1, h2, h3⟩ := parseN_footprint hf
    rw [h3] at hr ⊢
    rw [exec, execParsen, if_neg (by simp [h1]), if_neg h2]
    exact finishParse_composer_ok s.tr hr

/-- A parse command with an unreadable byte in its footprint raises BufferFault for the lowest of them. -/
theorem exec_parse_fault {i : Instr} {s : State} {k : Nat} (h : s.FirstUnreadable (addressOf i) (footprint i) k) :
    exec i s = .next (raise (.bufferFault (addressOf i + k)) (lockTier s)) := by
  have hf : 0 < footprint i := by have := h.1; omega
  cases i with
  | setTier t => simp [footprint] at hf
  | parse4 a => exact finishParse_kernel_faults kernel4_faults .parse4 s.tr h
  | parse8 a => exact finishParse_kernel_faults kernel8_faults .parse8 s.tr h
  | parse16 a => exact finishParse_kernel_faults kernel16_faults .parse16 s.tr h
  | parseN a len =>
    obtain ⟨h1, h2, h3⟩ := parseN_footprint hf
    rw [h3] at h
    rw [exec, execParsen, if_neg (by simp [h1]), if_neg h2]
    exact finishParse_composer_faults s.tr h

/-- PARSEN with length 0 (R205). -/
theorem exec_parseN_zero (a : Addr) (s : State) :
    exec (.parseN a 0#5) s = .next (respond (Config.UNSPEC .parseN s.tier []) (lockTier s)) := rfl

theorem footprint_parseN (a : Addr) {len : BitVec 5} (h : len.toNat ≤ 16) : footprint (.parseN a len) = len.toNat := by
  simp [footprint, lenOk, h]

/-- A well-formed parse command that consumes nothing is PARSEN with length 0. -/
theorem parse_zero {i : Instr} (hw : i.wf = true) (hp : i.isParse = true) (h : footprint i = 0) : ∃ a, i = .parseN a 0#5 := by
  cases i with
  | setTier => cases hp
  | parse4 => simp [footprint] at h
  | parse8 => simp [footprint] at h
  | parse16 => simp [footprint] at h
  | parseN a len =>
    have hl : lenOk len = true := hw
    rw [footprint, if_pos hl] at h
    exact ⟨a, by rw [show len = 0#5 from BitVec.eq_of_toNat_eq h]⟩

/-- Everything `respond` leaves of a parse command. -/
theorem parseDone_respond (v : Word) (s : State) : s.ParseDone (respond v (lockTier s)) v :=
  ⟨rfl, rfl, rfl, rfl, rfl, rfl, rfl, rfl, fun _ => rfl, rfl, rfl⟩

/-- Everything fault entry leaves. -/
theorem faultTaken_raise (c : Cause) (s : State) : s.FaultTaken (raise c s) c.code (c.address s.par) :=
  ⟨rfl, rfl, rfl, ⟨_, rfl⟩, rfl, rfl, fun _ => rfl, rfl, rfl⟩

/-- Fault entry of a parse command, which had locked the tier. -/
theorem faultTaken_raise_lockTier (c : Cause) (s : State) :
    s.FaultTaken (raise c (lockTier s)) c.code (c.address s.par) :=
  ⟨rfl, rfl, rfl, ⟨_, rfl⟩, rfl, rfl, fun _ => rfl, rfl, rfl⟩

/-- A kernel's value does not depend on what the transients held before (R37). -/
theorem kernel8_value (s : State) (a : Nat) (t u : Transients) :
    kernelValue (kernel8 s a t) = kernelValue (kernel8 s a u) := by
  cases h : s.tier <;> simp only [kernel8, h, bt8, vk8] <;> split <;> rfl

theorem kernel16_value (s : State) (a : Nat) (t u : Transients) :
    kernelValue (kernel16 s a t) = kernelValue (kernel16 s a u) := by
  cases h : s.tier <;> simp only [kernel16, h, bt16, vk16] <;> split <;> (try split) <;> rfl

theorem kernel4_value (s : State) (a : Nat) (t u : Transients) :
    kernelValue (kernel4 s a t) = kernelValue (kernel4 s a u) := by
  simp only [kernel4, bt4]
  split <;> rfl

/-- SETTIER where one of R86(d) and R86(e) holds. -/
theorem exec_setTier_illegal {b : BitVec 2} {s : State}
    (h : b = 3#2 ∨ s.par.tierMax.rank < b.toNat ∨ s.tierLock = true) :
    exec (.setTier b) s = .next (raise .illegalCommand s) := by
  have key : ∀ b : BitVec 2, Tier.ofBits b = none ∨ ∃ t, Tier.ofBits b = some t ∧ t.rank = b.toNat ∧ b ≠ 3#2 := by decide
  simp only [exec, execSettier]
  rcases key b with e | ⟨t, e, hr, hb⟩
  · rw [e]
  · simp only [e, hr]
    rcases h with h | h | h
    · exact absurd h hb
    · rw [if_pos h]
    · rw [if_pos h]; split <;> rfl

/-- SETTIER where none of them holds. -/
theorem exec_setTier_legal {t : Tier} {s : State} (hm : t.rank ≤ s.par.tierMax.rank) (hl : s.tierLock = false) :
    exec (.setTier t.toBits) s = .next (respondNoData (writeTier t s)) := by
  have e : Tier.ofBits t.toBits = some t := by cases t <;> rfl
  simp only [exec, execSettier, e]
  rw [if_neg (by omega), if_neg (by simp [hl])]

/-- A command that consumes nothing touches no byte of the buffer: SETTIER, PARSEN with length 0, or one that decode
refuses. -/
theorem exec_no_footprint {i : Instr} (s : State) (hf : footprint i = 0) :
    exec i s = .next (raise .illegalCommand s) ∨
      (∃ t, t.rank ≤ s.par.tierMax.rank ∧ s.tierLock = false ∧ i = .setTier t.toBits ∧
        exec i s = .next (respondNoData (writeTier t s))) ∨
      (∃ a, i = .parseN a 0#5 ∧ exec i s = .next (respond (Config.UNSPEC .parseN s.tier []) (lockTier s))) := by
  cases i with
  | setTier b =>
    by_cases h : b = 3#2 ∨ s.par.tierMax.rank < b.toNat ∨ s.tierLock = true
    · exact .inl (exec_setTier_illegal h)
    · rw [not_or, not_or, Nat.not_lt, Bool.not_eq_true] at h
      have key : ∀ b : BitVec 2, b = 3#2 ∨ ∃ t : Tier, Tier.ofBits b = some t ∧ t.toBits = b := by decide
      rcases key b with hb | ⟨t, -, rfl⟩
      · exact absurd hb h.1
      · exact .inr (.inl ⟨t, h.2.1, h.2.2, rfl, exec_setTier_legal h.2.1 h.2.2⟩)
  | parse4 a => simp [footprint] at hf
  | parse8 a => simp [footprint] at hf
  | parse16 a => simp [footprint] at hf
  | parseN a len =>
    cases hl : lenOk len with
    | false => exact .inl (by rw [exec, execParsen, if_pos hl])
    | true =>
      rw [footprint, if_pos hl] at hf
      obtain rfl : len = 0#5 := BitVec.eq_of_toNat_eq hf
      exact .inr (.inr ⟨a, rfl, rfl⟩)

/-- A parse command ends in a BufferFault or in a response, with the tier locked. -/
theorem finishParse_cases (op : ParseOp) (a n : Nat) (r : Except Nat Word) (s : State) :
    (∃ f, finishParse op a n r s = .next (raise (.bufferFault f) s)) ∨
      (∃ v, finishParse op a n r s = .next (respond v s)) := by
  cases r with
  | error f => exact .inl ⟨f, rfl⟩
  | ok v => exact .inr ⟨_, rfl⟩

/-- The four ways a command ends. -/
inductive Ending (s : State) : State → Prop where
  /-- IllegalCommand, with nothing else done (R232). -/
  | illegal : Ending s (raise .illegalCommand s)
  /-- BufferFault of a parse command, the tier locked (R231, R236). -/
  | buffer (f : Nat) : Ending s (raise (.bufferFault f) (lockTier s))
  /-- The response of a parse command, the tier locked (R208). -/
  | parsed (v : Word) : Ending s (respond v (lockTier s))
  /-- The response of SETTIER (R201). -/
  | tierSet (t : Tier) (implemented : t.rank ≤ s.par.tierMax.rank) (unlocked : s.tierLock = false) :
      Ending s (respondNoData (writeTier t s))

theorem finishParse_ending (op : ParseOp) (a n : Nat) (r : Except Nat Word) (s : State) :
    ∃ t, finishParse op a n r (lockTier s) = .next t ∧ Ending s t := by
  rcases finishParse_cases op a n r (lockTier s) with ⟨f, e⟩ | ⟨v, e⟩
  · exact ⟨_, e, .buffer f⟩
  · exact ⟨_, e, .parsed v⟩

/-- Every command ends, in one of the four ways. -/
theorem exec_ending (i : Instr) (s : State) : ∃ t, exec i s = .next t ∧ Ending s t := by
  cases i with
  | setTier tier =>
    simp only [exec, execSettier]
    split
    · exact ⟨_, rfl, .illegal⟩
    · split
      · exact ⟨_, rfl, .illegal⟩
      · split
        · exact ⟨_, rfl, .illegal⟩
        · rename_i t _ h1 h2
          exact ⟨_, rfl, .tierSet t (by omega) (by simpa using h2)⟩
  | parse4 a => exact finishParse_ending _ _ _ _ s
  | parse8 a => exact finishParse_ending _ _ _ _ s
  | parse16 a => exact finishParse_ending _ _ _ _ s
  | parseN a len =>
    simp only [exec, execParsen]
    split
    · exact ⟨_, rfl, .illegal⟩
    · split
      · exact ⟨_, rfl, .parsed _⟩
      · exact finishParse_ending _ _ _ _ s

/-- A presented command ends in one of the four ways from the state in which it was accepted. -/
theorem runCommand_ending (cw : CmdWord) (a : Addr) (s : State) :
    ∃ t, runCommand cw a s = .next t ∧ Ending (accept s) t := by
  rw [runCommand]
  split
  · exact ⟨_, rfl, .illegal⟩
  · exact exec_ending _ _

/-- Everything a step that answers a next state can have done, each with the host's action that made it. -/
inductive Stepped (s : State) : State → Prop where
  /-- The host asserted `rst`. -/
  | reset (rest : List HostAction) (action : s.host = .reset :: rest) : Stepped s (resetBlock s)
  /-- Nothing was there to do. -/
  | idle (action : s.host = []) (phase : s.phase = .idle) : Stepped s s
  /-- A command was accepted and ended. -/
  | command (cw : CmdWord) (a : Addr) (rest : List HostAction) (action : s.host = .present cw a :: rest)
      (phase : s.phase = .idle) (t : State) (ending : Ending (accept s) t) : Stepped s t
  /-- The host wrote a byte of the buffer. -/
  | store (a : Nat) (b : Byte) (rest : List HostAction) (action : s.host = .store a b :: rest) (phase : s.phase ≠ .busy) :
      Stepped s (hostStore a b s)
  /-- The host took a byte out of the readable window. -/
  | unmap (a : Nat) (rest : List HostAction) (action : s.host = .unmap a :: rest) (phase : s.phase ≠ .busy) :
      Stepped s (hostUnmap a s)

/-- The inversion of `step`: an invariant follows from these five cases. -/
theorem step_cases {s t : State} (h : step s = .next t) : Stepped s t := by
  rw [step] at h
  split at h
  · rename_i ha; cases h; exact .reset _ ha
  · rename_i ha hp; cases h; exact .idle ha hp
  · rename_i cw a _ ha hp
    obtain ⟨u, e, hu⟩ := runCommand_ending cw a s
    rw [e] at h
    cases h
    exact .command cw a _ ha hp _ hu
  · cases h
  · cases h
  · cases h
  · cases h
  · cases h
  · cases h
  · rename_i ha hp; cases h; exact .store _ _ _ ha (by simp [hp])
  · rename_i ha hp; cases h; exact .store _ _ _ ha (by simp [hp])
  · rename_i ha hp; cases h; exact .unmap _ _ ha (by simp [hp])
  · rename_i ha hp; cases h; exact .unmap _ _ ha (by simp [hp])

end Sys2Proof.Machine
end

