-- ==== Sys2Proof/Laws/Decode.lean ====
section
/-! SUPPORT. The decoder, inverted: what a word that decodes looks like, and which words do not decode. -/

namespace Sys2Proof

/-- A command word is made of its four fields (R81). -/
theorem commandWord_of_fields (cw : CmdWord) : commandWord (fieldZero cw) (fieldTier cw) (fieldLen cw) (fieldOp cw) = cw := by
  refine BitVec.eq_of_toNat_eq ?_
  have hc := cw.isLt
  simp only [commandWord, BitVec.toNat_append]
  rw [← Nat.shiftLeft_add_eq_or_of_lt (fieldTier cw).isLt, ← Nat.shiftLeft_add_eq_or_of_lt (fieldLen cw).isLt,
    ← Nat.shiftLeft_add_eq_or_of_lt (fieldOp cw).isLt]
  simp only [fieldZero, fieldTier, fieldLen, fieldOp, BitVec.extractLsb'_toNat, Nat.shiftRight_eq_div_pow, Nat.shiftLeft_eq]
  omega

/-- The conditions of R86 that the word alone decides, in the order of R92. -/
def IllegalWord (cw : CmdWord) : Prop :=
  fieldZero cw ≠ 0#21 ∨ (fieldOp cw = 0#4 ∨ 6 ≤ (fieldOp cw).toNat) ∨ (fieldOp cw ≠ 5#4 ∧ fieldLen cw ≠ 0#5) ∨
    (fieldOp cw ≠ 1#4 ∧ fieldTier cw ≠ 0#2) ∨ (fieldOp cw = 5#4 ∧ lenOk (fieldLen cw) = false) ∨
    (fieldOp cw = 1#4 ∧ tierOk (fieldTier cw) = false)

theorem decode_error {cw : CmdWord} (h : IllegalWord cw) (a : Addr) : ∃ r, decode cw a = .error r := by
  rw [decode]
  by_cases h1 : fieldZero cw ≠ 0#21
  · exact ⟨_, if_pos h1⟩
  rw [if_neg h1]
  by_cases h2 : fieldOp cw = 0#4 ∨ 6 ≤ (fieldOp cw).toNat
  · exact ⟨_, if_pos h2⟩
  rw [if_neg h2]
  by_cases h3 : fieldOp cw ≠ 5#4 ∧ fieldLen cw ≠ 0#5
  · exact ⟨_, if_pos h3⟩
  rw [if_neg h3]
  by_cases h4 : fieldOp cw ≠ 1#4 ∧ fieldTier cw ≠ 0#2
  · exact ⟨_, if_pos h4⟩
  rw [if_neg h4]
  by_cases h5 : fieldOp cw = 5#4 ∧ lenOk (fieldLen cw) = false
  · exact ⟨_, if_pos h5⟩
  rw [if_neg h5]
  by_cases h6 : fieldOp cw = 1#4 ∧ tierOk (fieldTier cw) = false
  · exact ⟨_, if_pos h6⟩
  rcases h with h | h | h | h | h | h <;> contradiction

/-- The five shapes of a legal word, each with the command it decodes to. -/
inductive Decoded (cw : CmdWord) (a : Addr) : Instr → Prop where
  | setTier (op : fieldOp cw = 1#4) (zero : fieldZero cw = 0#21) (len : fieldLen cw = 0#5)
      (ok : tierOk (fieldTier cw) = true) : Decoded cw a (.setTier (fieldTier cw))
  | parse4 (op : fieldOp cw = 2#4) (zero : fieldZero cw = 0#21) (len : fieldLen cw = 0#5) (tier : fieldTier cw = 0#2) :
      Decoded cw a (.parse4 a)
  | parse8 (op : fieldOp cw = 3#4) (zero : fieldZero cw = 0#21) (len : fieldLen cw = 0#5) (tier : fieldTier cw = 0#2) :
      Decoded cw a (.parse8 a)
  | parse16 (op : fieldOp cw = 4#4) (zero : fieldZero cw = 0#21) (len : fieldLen cw = 0#5) (tier : fieldTier cw = 0#2) :
      Decoded cw a (.parse16 a)
  | parseN (op : fieldOp cw = 5#4) (zero : fieldZero cw = 0#21) (tier : fieldTier cw = 0#2)
      (ok : lenOk (fieldLen cw) = true) : Decoded cw a (.parseN a (fieldLen cw))

/-- A word that is not illegal decodes to one of the five commands. -/
theorem decode_ok {cw : CmdWord} (h : ¬ IllegalWord cw) (a : Addr) : ∃ i, decode cw a = .ok i ∧ Decoded cw a i := by
  simp only [IllegalWord, not_or, not_and, not_not, Bool.not_eq_false] at h
  obtain ⟨h1, ⟨h2, h2'⟩, h3, h4, h5, h6⟩ := h
  have hop : fieldOp cw = 1#4 ∨ fieldOp cw = 2#4 ∨ fieldOp cw = 3#4 ∨ fieldOp cw = 4#4 ∨ fieldOp cw = 5#4 := by
    revert h2 h2'; generalize fieldOp cw = x; revert x; decide
  rcases hop with o | o | o | o | o <;> simp only [o] at h3 h4 h5 h6 <;>
    simp only [decode, h1, o, ne_eq, not_true_eq_false, if_false, false_and]
  · have hl := h3 (by decide)
    have ht := h6 trivial
    exact ⟨_, by simp [hl, ht], .setTier o h1 hl ht⟩
  · have hl := h3 (by decide)
    have ht := h4 (by decide)
    exact ⟨_, by simp [hl, ht], .parse4 o h1 hl ht⟩
  · have hl := h3 (by decide)
    have ht := h4 (by decide)
    exact ⟨_, by simp [hl, ht], .parse8 o h1 hl ht⟩
  · have hl := h3 (by decide)
    have ht := h4 (by decide)
    exact ⟨_, by simp [hl, ht], .parse16 o h1 hl ht⟩
  · have hl := h5 trivial
    have ht := h4 (by decide)
    exact ⟨_, by simp [hl, ht], .parseN o h1 ht hl⟩

/-- What `decode` answers is one of the five commands. -/
theorem decode_cases {cw : CmdWord} {a : Addr} {i : Instr} (h : decode cw a = .ok i) : Decoded cw a i := by
  by_cases hi : IllegalWord cw
  · obtain ⟨r, e⟩ := decode_error hi a
    rw [e] at h; cases h
  · obtain ⟨j, e, hj⟩ := decode_ok hi a
    rw [e] at h; cases h
    exact hj

open Sys2Proof.Machine

/-- A presented illegal word raises IllegalCommand. -/
theorem step_present_illegal {s : State} {cw : CmdWord} {a : Addr} {rest : List HostAction} (hp : s.phase = .idle)
    (hh : s.host = .present cw a :: rest) (h : IllegalWord cw) : step s = .next (raise .illegalCommand (accept s)) := by
  obtain ⟨r, e⟩ := decode_error h (portCommand s cw a).2
  simp only [step, hh, hp, runCommand]
  rw [show decode (portCommand s cw a).1 _ = .error r from e]

/-- A presented legal word runs its command. -/
theorem step_present_legal {s : State} {cw : CmdWord} {a : Addr} {rest : List HostAction} (hp : s.phase = .idle)
    (hh : s.host = .present cw a :: rest) (h : ¬ IllegalWord cw) :
    ∃ i, Decoded cw (wireAddr s.par a.toNat) i ∧ step s = exec i (accept s) := by
  obtain ⟨i, e, hd⟩ := decode_ok h (portCommand s cw a).2
  refine ⟨i, hd, ?_⟩
  simp only [step, hh, hp, runCommand]
  rw [show decode (portCommand s cw a).1 _ = .ok i from e]

theorem raisesIllegal_of_illegalWord {cw : CmdWord} (h : IllegalWord cw) : RaisesIllegal cw := fun _ _ _ hp hh =>
  ⟨_, step_present_illegal hp hh h, faultTaken_raise .illegalCommand _, rfl⟩

end Sys2Proof
end

