-- ==== Sys2Proof/Laws/PerInstr.lean ====
section
/-! SUPPORT. Families of statements over all commands, one lemma for each constructor. -/

namespace Sys2Proof.Laws.EncodedFields

/-- The word of a command has its `op` (R82) and no must-be-zero bit set (R85). -/
def Statement (i : Instr) : Prop :=
  fieldOp (encode i).1 = i.op ∧ fieldZero (encode i).1 = 0#21 ∧
    (i.op ≠ 5#4 → fieldLen (encode i).1 = 0#5) ∧ (i.op ≠ 1#4 → fieldTier (encode i).1 = 0#2)

theorem setTier (tier : BitVec 2) : Statement (.setTier tier) := by
  simp only [Statement, encode, Instr.op]; revert tier; decide

theorem parse4 (a : Addr) : Statement (.parse4 a) := by
  simp only [Statement, encode, Instr.op]; decide

theorem parse8 (a : Addr) : Statement (.parse8 a) := by
  simp only [Statement, encode, Instr.op]; decide

theorem parse16 (a : Addr) : Statement (.parse16 a) := by
  simp only [Statement, encode, Instr.op]; decide

theorem parseN (a : Addr) (len : BitVec 5) : Statement (.parseN a len) := by
  simp only [Statement, encode, Instr.op]; revert len; decide

end Sys2Proof.Laws.EncodedFields
end

