-- ==== Sys2Proof/Machine/Asm.lean ====
section
/-! DEFINITION. The assembler notation of 30_encoding.md R89 as abstract syntax, and what it stands for: the host's acts,
bytes placed in the buffer and commands presented in order. What R89 leaves open and this file settles is log entry 13. -/

namespace Sys2Proof.Machine

/-- `addr`: a number, or a label and an offset (R89). -/
inductive AddrRef where
  | num (a : Nat)
  | label (name : List Char) (offset : Nat)
deriving DecidableEq, Repr

/-- A line of the notation (R89). The names BITTRICK, VEC_BASE and VEC_EXT stand for the numbers `Tier.toBits` gives. -/
inductive AsmLine where
  /-- `.org a` sets the next address. -/
  | org (a : Nat)
  /-- `label:` names the next address. -/
  | label (name : List Char)
  /-- `.digits "text"`, the ASCII bytes of the text, first character lowest, readable. -/
  | digits (text : List Char)
  /-- `.readable n`, the next `n` bytes readable, contents not defined. -/
  | readable (n : Nat)
  | settier (tier : BitVec 2)
  | parse4 (addr : AddrRef)
  | parse8 (addr : AddrRef)
  | parse16 (addr : AddrRef)
  | parseN (addr : AddrRef) (len : BitVec 5)
deriving DecidableEq, Repr

/-- The next address after a line that stands at `here`. -/
def AsmLine.nextAddr (here : Nat) : AsmLine → Nat
  | .org a => a
  | .digits text => here + text.length
  | .readable n => here + n
  | _ => here

/-- The address of each label of a listing whose first line stands at `here`. -/
def labelAddrs : Nat → List AsmLine → List (List Char × Nat)
  | _, [] => []
  | here, .label name :: ls => (name, here) :: labelAddrs here ls
  | here, l :: ls => labelAddrs (l.nextAddr here) ls

/-- The number an address stands for; none where its label is not defined. -/
def AddrRef.resolve (labels : List (List Char × Nat)) : AddrRef → Option Nat
  | .num a => some a
  | .label name offset => (labels.lookup name).map (· + offset)

/-- The bytes of a text placed from `here` on, first character lowest. -/
def placeText (here : Nat) : List Char → List HostAction
  | [] => []
  | c :: cs => .store here (BitVec.ofNat 8 c.toNat) :: placeText (here + 1) cs

/-- `n` bytes marked readable from `here` on, each with a free value as its contents (log entry 13). -/
def placeReadable (here : Nat) : Nat → List HostAction
  | 0 => []
  | n + 1 => .store here (Config.readableByte here) :: placeReadable (here + 1) n

/-- The command of an assembler line at the address given for it. -/
def presentAt (f : Addr → Instr) (a : Nat) : List HostAction :=
  [.present (encode (f (BitVec.ofNat 64 a))).1 (encode (f (BitVec.ofNat 64 a))).2]

/-- What one line at `here` has the host do. -/
def AsmLine.actions (labels : List (List Char × Nat)) (here : Nat) : AsmLine → Option (List HostAction)
  | .org _ => some []
  | .label _ => some []
  | .digits text => some (placeText here text)
  | .readable n => some (placeReadable here n)
  | .settier t => some (presentAt (fun _ => .setTier t) 0)
  | .parse4 r => (r.resolve labels).map (presentAt .parse4)
  | .parse8 r => (r.resolve labels).map (presentAt .parse8)
  | .parse16 r => (r.resolve labels).map (presentAt .parse16)
  | .parseN r len => (r.resolve labels).map (presentAt (fun a => .parseN a len))

/-- The acts of the lines from `here` on, each line's after those of the lines before it. DESIGN CHOICE, safe (log entry 13):
R89 does not say when the bytes of `.digits` and `.readable` are placed relative to the commands of earlier lines; here they
are placed when their line is reached, after those commands ran, so a command that names a later label finds its bytes not yet
placed. -/
def assembleFrom (labels : List (List Char × Nat)) : Nat → List AsmLine → Option (List HostAction)
  | _, [] => some []
  | here, l :: ls =>
    match l.actions labels here, assembleFrom labels (l.nextAddr here) ls with
    | some xs, some ys => some (xs ++ ys)
    | _, _ => none

/-- A listing as what the host does, in the order of its lines; none where a label is not defined. DESIGN CHOICE, safe (log
entry 13): R89 gives no next address before the first `.org` line; here it is 0. -/
def assemble (ls : List AsmLine) : Option (List HostAction) := assembleFrom (labelAddrs 0 ls) 0 ls

end Sys2Proof.Machine
end

