-- ==== Sys2Proof/Tests/Slice0.lean ====
section
/-! SUPPORT. The model's own tests, their expected values taken from spec/ (30_encoding.md R93, 95_test_vectors.md), and a
witness for the hypotheses of every obligation that has some. -/

namespace Sys2Proof.Tests

open Sys2Proof Sys2Proof.Machine

/-! ## Helpers -/

/-- The codes listed, at `a` and on. -/
def codesAt : Nat → List Nat → Mem
  | _, [] => []
  | a, c :: cs => (a, BitVec.ofNat 8 c) :: codesAt (a + 1) cs

/-- The state after reset with a tier and a buffer. -/
def ready (tier : Tier) (mem : Mem) : State := { State.reset with tier := tier, mem := mem }

/-- "1234567890123456" at 0x1000. -/
def digits16 : Mem := codesAt 0x1000 [49, 50, 51, 52, 53, 54, 55, 56, 57, 48, 49, 50, 51, 52, 53, 54]

/-- 95_test_vectors.md 2.6: "20261110" at 0x2000 and four readable bytes 0x00 after it. -/
def slack : Mem := codesAt 0x2000 [50, 48, 50, 54, 49, 49, 49, 48, 0, 0, 0, 0]

/-- 95_test_vectors.md P5: "12:45678" at 0x5000. -/
def nonDigits : Mem := codesAt 0x5000 [49, 50, 58, 52, 53, 54, 55, 56]

/-- A field of the next state, if there is one. -/
def after {α : Type} (f : State → α) : Host.Outcome State Fault Refusal → Option α
  | .next s => some (f s)
  | .fault _ => none
  | .refused _ => none

/-- RESULT, PHASE and TIER_LOCK. -/
def answer (s : State) : Word × Phase × Bool := (s.result, s.phase, s.tierLock)

/-- PHASE, FCODE, FADDR, TIER and TIER_LOCK. -/
def trouble (s : State) : Phase × FCode × Addr × Tier × Bool := (s.phase, s.fcode, s.faddr, s.tier, s.tierLock)

/-- `s` with the host about to present `(cw, a)`. -/
def presenting (s : State) (cw : CmdWord) (a : Addr) : State := { s with host := [.present cw a] }

/-! ## Well-formedness: an ill-formed term for each check -/

theorem test_wf_refuses_tier_3 : Instr.wf (.setTier 3#2) = false := by decide
theorem test_wf_refuses_length_17 : Instr.wf (.parseN 0x1000#64 17#5) = false := by decide
theorem test_wf_accepts_length_0_and_16 : Instr.wf (.parseN 0#64 0#5) = true ∧ Instr.wf (.parseN 0#64 16#5) = true := by decide
theorem test_memory_wf_refuses_disorder : Memory.wf [(2, 0#8), (1, 0#8)] = false := by decide
theorem test_memory_wf_refuses_repeats : Memory.wf [(1, 0#8), (1, 1#8)] = false := by decide

/-! ## Decoding, bit by bit from the rows' `encoding` -/

theorem test_decode_settier : decode 0b00000000000000000000010000000001#32 7#64 = .ok (.setTier 2#2) := by decide
theorem test_decode_parse4 : decode 0b00000000000000000000000000000010#32 0x1000#64 = .ok (.parse4 0x1000#64) := by decide
theorem test_decode_parse8 : decode 0b00000000000000000000000000000011#32 0x1000#64 = .ok (.parse8 0x1000#64) := by decide
theorem test_decode_parse16 : decode 0b00000000000000000000000000000100#32 0x1000#64 = .ok (.parse16 0x1000#64) := by decide
theorem test_decode_parsen : decode 0b00000000000000000000000011010101#32 0x1000#64 = .ok (.parseN 0x1000#64 13#5) := by decide
/-- The illegal words of 95_test_vectors.md 2.1. -/
theorem test_decode_illegal :
    decode 0x00000011#32 0#64 = .error .lenNotZero ∧ decode 0x000001F5#32 0#64 = .error .lenTooLong ∧
      decode 0x00000205#32 0#64 = .error .tierNotZero ∧ decode 0x0000000F#32 0#64 = .error .reservedOp ∧
      decode 0x80000004#32 0#64 = .error .zeroBitsSet := by decide
theorem test_table_word : decodeTableWord 32 0x000000D5 = some (.parseN 0#64 13#5) ∧ decodeTableWord 32 0x00000601 = none := by
  decide
theorem test_encode_parsen : encode (.parseN 0x1000#64 16#5) = (0x00000105#32, 0x1000#64) := by decide

/-! ## Datapaths (95_test_vectors.md 2.2 to 2.5) -/

theorem test_swar_levels : swarL1 0x3031313136323032#64 = 0x000A000B001A0014#64 ∧
    swarL2 0x000A000B001A0014#64 = 0x00000456000007EA#64 ∧ swarL3 0x00000456000007EA#64 = 20261110#64 := by decide
theorem test_little_endian : memRead (ready .bittrick digits16) 0x1000 8 = .ok 0x3837363534333231 := by decide
theorem test_mem_read_fault : memRead (ready .bittrick slack) 0x2005 8 = .error 0x200C := by decide
theorem test_fold_wraps :
    (foldAcc .k1 6#64 { State.reset.tr with acc := 1844674407370955161#64 }).acc = 0#64 := by decide
theorem test_digit_range : isDigit 0x2F#8 = false ∧ isDigit 0x30#8 = true ∧ isDigit 0x39#8 = true ∧ isDigit 0x3A#8 = false := by decide
theorem test_tail_digit : tailDigit 0x37#8 = 7#64 := by decide
/-- V.LOAD8DUP of "20261110" (2.3). -/
theorem test_load8dup : vLoad8Dup (ready .vecBase slack) 0x2000 = .ok 0x30313131363230323031313136323032#128 := by decide

/-! ## Commands -/

theorem test_settier_sets_and_locks :
    after (fun s => (s.tier, s.tierLock, s.phase, s.responses)) (exec (.setTier 2#2) State.reset) =
      some (.vecExt, true, .idle, [⟨false, 0#4, 0#64⟩]) := by decide
theorem test_settier_twice_is_illegal :
    after trouble (exec (.setTier 2#2) { ready .vecBase [] with tierLock := true }) =
      some (.fault, .illegalCommand, 0#64, .vecBase, true) := by decide
theorem test_parse4_reads_four :
    after answer (exec (.parse4 0x2004#64) (ready .bittrick slack)) = some (1110#64, .idle, true) := by decide
theorem test_parse4_fault_at_its_first_byte :
    after trouble (exec (.parse4 0x1FFE#64) (ready .vecExt slack)) = some (.fault, .bufferFault, 0x1FFE#64, .vecExt, true) := by
  decide
theorem test_parse8_bittrick :
    after answer (exec (.parse8 0x2000#64) (ready .bittrick slack)) = some (20261110#64, .idle, true) := by decide
theorem test_parse8_vector :
    after answer (exec (.parse8 0x2000#64) (ready .vecBase slack)) = some (20261110#64, .idle, true) := by decide
theorem test_parse16_vector :
    after answer (exec (.parse16 0x1000#64) (ready .vecExt digits16)) = some (0x000462D53C8ABAC0#64, .idle, true) := by decide
theorem test_parse16_needs_slack :
    after trouble (exec (.parse16 0x2000#64) (ready .vecBase slack)) = some (.fault, .bufferFault, 0x200C#64, .vecBase, true) := by
  decide
theorem test_parsen_13 :
    after answer (exec (.parseN 0x1000#64 13#5) (ready .bittrick digits16)) = some (1234567890123#64, .idle, true) := by decide
/-- The tail byte cannot be read although S8 and S4 read theirs (2.6). -/
theorem test_parsen_tail_fault :
    after trouble (exec (.parseN 0x2000#64 13#5) (ready .bittrick slack)) =
      some (.fault, .bufferFault, 0x200C#64, .bittrick, true) := by decide
/-- The result of bytes that are not digits is UNSPEC as a whole (P5). -/
theorem test_parse8_non_digits :
    after (fun s => s.result) (exec (.parse8 0x5000#64) (ready .bittrick nonDigits)) =
      some (Config.UNSPEC .parse8 .bittrick [0x31#8, 0x32#8, 0x3A#8, 0x34#8, 0x35#8, 0x36#8, 0x37#8, 0x38#8]) := rfl
/-- The address 0x10000 does not exist with AW = 16 (2.6). -/
theorem test_no_wrap_at_the_top :
    after trouble (exec (.parse8 0xFFFC#64)
      { ready .bittrick (codesAt 0 [48, 48, 48, 48] ++ codesAt 0xFFFC [50, 48, 50, 54]) with par := ⟨16, .vecExt⟩ }) =
      some (.fault, .bufferFault, 0#64, .bittrick, true) := by decide
theorem test_step_tier_above_max :
    after trouble (step { presenting State.reset 0x00000201#32 0#64 with par := ⟨64, .bittrick⟩ }) =
      some (.fault, .illegalCommand, 0#64, .bittrick, false) := by decide
theorem test_step_first_after_reset :
    after trouble (step (State.reset.withFetchWord 32 0x00000401)) = some (.idle, .none, 0#64, .vecExt, true) := by decide
theorem test_step_reset :
    after trouble (step { presenting State.reset 0#32 0#64 with
      host := [.reset], phase := .fault, fcode := .bufferFault, faddr := 5#64, tier := .vecExt, tierLock := true }) =
      some (.idle, .none, 0#64, .bittrick, false) := by decide
/-- `big+16` of program P4. -/
theorem test_assemble :
    assemble [.org 0x4000, .label ['b', 'i', 'g'], .digits ['1', '6'], .parse16 (.label ['b', 'i', 'g'] 0),
      .parseN (.label ['b', 'i', 'g'] 16) 4#5] =
      some [.store 0x4000 0x31#8, .store 0x4001 0x36#8, .present 0x00000004#32 0x4000#64, .present 0x00000045#32 0x4010#64] := by
  decide

/-! ## Witnesses -/

theorem readable_digits16 {n : Nat} (h : n ≤ 16) (tier : Tier) : (ready tier digits16).Readable 0x1000 n := by
  intro k hk
  have : ∀ k, k < 16 → ((ready tier digits16).readByte (0x1000 + k)).isSome = true := by cases tier <;> decide
  exact this k (by omega)

theorem witness_DecodeOfEncodeIsTheCommand : Instr.wf (.parseN 0x1000#64 16#5) = true ∧ Instr.wf (.setTier 2#2) = true := by
  decide
theorem witness_DecodedWordIsItsEncoding : decode 0x00000105#32 0x1000#64 = .ok (.parseN 0x1000#64 16#5) := by decide
theorem witness_StepRunsTheDecodedCommand :
    (presenting State.reset 0x000000D5#32 0x1000#64).phase = .idle ∧
      (presenting State.reset 0x000000D5#32 0x1000#64).host = .present 0x000000D5#32 0x1000#64 :: [] ∧
      decode 0x000000D5#32 (BitVec.ofNat 64 ((0x1000#64).toNat % 2 ^ (presenting State.reset 0x000000D5#32 0x1000#64).par.aw)) =
        .ok (.parseN 0x1000#64 13#5) := by decide
/-- Both sides of every boundary of R86: op 0, 1, 5 and 6, length 16 and 17, tier 2 and 3, tier above and at TIER_MAX, locked
and not. -/
theorem witness_IllegalCommandsAreExactlyThese :
    (presenting State.reset 0#32 0#64).phase = .idle ∧ (presenting State.reset 0#32 0#64).host = .present 0#32 0#64 :: [] ∧
      fieldOp 0x00000000#32 = 0#4 ∧ (fieldOp 0x00000006#32).toNat = 6 ∧ fieldZero 0x00000802#32 ≠ 0#21 ∧
      (fieldOp 0x00000013#32 ≠ 5#4 ∧ fieldLen 0x00000013#32 ≠ 0#5) ∧
      (fieldOp 0x00000205#32 ≠ 1#4 ∧ fieldTier 0x00000205#32 ≠ 0#2) ∧
      (fieldOp 0x00000115#32 = 5#4 ∧ (fieldLen 0x00000115#32).toNat = 17) ∧
      (fieldOp 0x00000601#32 = 1#4 ∧ fieldTier 0x00000601#32 = 3#2) ∧
      (fieldOp 0x00000401#32 = 1#4 ∧ Tier.vecBase.toBits.toNat < (fieldTier 0x00000401#32).toNat) ∧
      (fieldOp 0x00000105#32 = 5#4 ∧ (fieldLen 0x00000105#32).toNat = 16) ∧ State.reset.tierLock = false := by decide
theorem witness_OneResponsePerAcceptedCommand :
    (presenting State.reset 0x00000401#32 0#64).phase = .idle ∧
      (presenting State.reset 0x00000401#32 0#64).host = .present 0x00000401#32 0#64 :: [] := by decide
theorem witness_SettierWritesTheTierOnce_legal :
    Tier.vecExt.rank ≤ State.reset.par.tierMax.rank ∧ State.reset.tierLock = false := by decide
theorem witness_SettierWritesTheTierOnce_illegal :
    (3#2 = 3#2) ∧ Tier.bittrick.toBits.toNat < (1#2).toNat ∧ { State.reset with tierLock := true }.tierLock = true := by decide
theorem witness_SettierWritesTheTierOnce_word :
    fieldOp 0x00000011#32 = 1#4 ∧ fieldLen 0x00000011#32 ≠ 0#5 ∧ fieldOp 0x00000801#32 = 1#4 ∧ fieldZero 0x00000801#32 ≠ 0#21 := by
  decide
theorem witness_Parse4RespondsWithFourDigits : (ready .bittrick digits16).Readable (0x1000#64).toNat 4 :=
  readable_digits16 (by decide) _
theorem witness_Parse4_fault : (ready .bittrick slack).FirstUnreadable (0x200A#64).toNat 4 2 := by
  unfold State.FirstUnreadable State.Readable; decide
theorem witness_Parse4_word : fieldOp 0x00000802#32 = 2#4 ∧ fieldZero 0x00000802#32 ≠ 0#21 ∧ fieldOp 0x00000012#32 = 2#4 ∧
    fieldLen 0x00000012#32 ≠ 0#5 ∧ fieldOp 0x00000202#32 = 2#4 ∧ fieldTier 0x00000202#32 ≠ 0#2 := by decide
theorem witness_Parse8RespondsWithEightDigits : (ready .vecBase digits16).Readable (0x1000#64).toNat 8 :=
  readable_digits16 (by decide) _
theorem witness_Parse8_fault : (ready .vecBase slack).FirstUnreadable (0x2005#64).toNat 8 7 := by
  unfold State.FirstUnreadable State.Readable; decide
theorem witness_Parse8_word : fieldOp 0x80000003#32 = 3#4 ∧ fieldZero 0x80000003#32 ≠ 0#21 ∧ fieldOp 0x00000013#32 = 3#4 ∧
    fieldLen 0x00000013#32 ≠ 0#5 ∧ fieldOp 0x00000603#32 = 3#4 ∧ fieldTier 0x00000603#32 ≠ 0#2 := by decide
theorem witness_Parse16RespondsWithSixteenDigits : (ready .vecExt digits16).Readable (0x1000#64).toNat 16 :=
  readable_digits16 (by decide) _
theorem witness_Parse16_fault : (ready .vecExt slack).FirstUnreadable (0x2000#64).toNat 16 12 := by
  unfold State.FirstUnreadable State.Readable; decide
theorem witness_Parse16_word : fieldOp 0x80000004#32 = 4#4 ∧ fieldZero 0x80000004#32 ≠ 0#21 ∧ fieldOp 0x00000104#32 = 4#4 ∧
    fieldLen 0x00000104#32 ≠ 0#5 ∧ fieldOp 0x00000204#32 = 4#4 ∧ fieldTier 0x00000204#32 ≠ 0#2 := by decide
theorem witness_ParsenRespondsWithItsDigits :
    1 ≤ (16#5).toNat ∧ (16#5).toNat ≤ 16 ∧ (ready .vecExt digits16).Readable (0x1000#64).toNat (16#5).toNat ∧
      1 ≤ (1#5).toNat ∧ (ready .bittrick digits16).Readable (0x1000#64).toNat (1#5).toNat :=
  ⟨by decide, by decide, readable_digits16 (by decide) _, by decide, readable_digits16 (by decide) _⟩
theorem witness_Parsen_fault :
    (13#5).toNat ≤ 16 ∧ (ready .vecExt slack).FirstUnreadable (0x2000#64).toNat (13#5).toNat 12 := by
  unfold State.FirstUnreadable State.Readable; decide
theorem witness_Parsen_word : fieldOp 0x00000115#32 = 5#4 ∧ (fieldLen 0x00000115#32).toNat = 17 ∧
    fieldOp 0x00000205#32 = 5#4 ∧ fieldTier 0x00000205#32 ≠ 0#2 ∧ fieldOp 0x80000005#32 = 5#4 ∧ fieldZero 0x80000005#32 ≠ 0#21 := by
  decide
/-- Four, eight, twelve and, over a longer buffer, sixteen bytes with a byte that is no digit. -/
theorem witness_NonDigitsCompleteUnspecified :
    (ready .vecBase slack).Readable (0x2008#64).toNat 4 ∧ allDigits (bytesAt (ready .vecBase slack) (0x2008#64).toNat 4) = false ∧
      (ready .bittrick nonDigits).Readable (0x5000#64).toNat 8 ∧
      allDigits (bytesAt (ready .bittrick nonDigits) (0x5000#64).toNat 8) = false ∧
      (ready .vecExt (codesAt 0 (List.replicate 16 58))).Readable (0#64).toNat 16 ∧
      allDigits (bytesAt (ready .vecExt (codesAt 0 (List.replicate 16 58))) (0#64).toNat 16) = false ∧
      (ready .vecBase slack).Readable (0x2000#64).toNat (12#5).toNat ∧
      allDigits (bytesAt (ready .vecBase slack) (0x2000#64).toNat (12#5).toNat) = false := by
  unfold State.Readable; decide
theorem witness_StagedParsenIsOneShot : 1 ≤ (13#5).toNat ∧ (13#5).toNat ≤ 16 := by decide
theorem witness_ParsenAtAFixedWidthIsTheFixedCommand :
    allDigits (bytesAt (ready .vecExt digits16) (0x1000#64).toNat 4) = true ∧
      allDigits (bytesAt (ready .vecExt digits16) (0x1000#64).toNat 8) = true ∧
      allDigits (bytesAt (ready .vecExt digits16) (0x1000#64).toNat 16) = true := by decide
theorem witness_TierDoesNotChangeAValidResult :
    Instr.wf (.parseN 0x1000#64 16#5) = true ∧ 0 < footprint (.parseN 0x1000#64 16#5) ∧
      (ready .bittrick digits16).Readable (addressOf (.parseN 0x1000#64 16#5)) (footprint (.parseN 0x1000#64 16#5)) ∧
      allDigits (bytesAt (ready .bittrick digits16) (addressOf (.parseN 0x1000#64 16#5)) (footprint (.parseN 0x1000#64 16#5))) = true :=
  ⟨by decide, by decide, readable_digits16 (by decide) _, by decide⟩
/-- "4567" at two addresses of two buffers. -/
theorem witness_ResponseIsAFunctionOfTheBytes :
    Instr.wf (.parse4 0x1003#64) = true ∧ Instr.wf (.parse4 7#64) = true ∧ Instr.isParse (.parse4 0x1003#64) = true ∧
      Instr.op (.parse4 0x1003#64) = Instr.op (.parse4 7#64) ∧ footprint (.parse4 0x1003#64) = footprint (.parse4 7#64) ∧
      (ready .vecExt digits16).tier = (ready .vecExt (codesAt 7 [52, 53, 54, 55])).tier ∧
      (ready .vecExt digits16).Readable (addressOf (.parse4 0x1003#64)) (footprint (.parse4 0x1003#64)) ∧
      (ready .vecExt (codesAt 7 [52, 53, 54, 55])).Readable (addressOf (.parse4 7#64)) (footprint (.parse4 7#64)) ∧
      bytesAt (ready .vecExt digits16) (addressOf (.parse4 0x1003#64)) (footprint (.parse4 0x1003#64)) =
        bytesAt (ready .vecExt (codesAt 7 [52, 53, 54, 55])) (addressOf (.parse4 7#64)) (footprint (.parse4 7#64)) := by
  unfold State.Readable; decide
/-- A buffer cut off after the eighth byte, for PARSE8. -/
theorem witness_OnlyTheFootprintIsRead : ∀ k, k < footprint (.parse8 0x1000#64) →
    ((ready .vecExt digits16).withMem (codesAt 0x1000 [49, 50, 51, 52, 53, 54, 55, 56])).readByte
      (addressOf (.parse8 0x1000#64) + k) = (ready .vecExt digits16).readByte (addressOf (.parse8 0x1000#64) + k) := by decide
theorem witness_UnreadableByteRaisesBufferFault :
    Instr.wf (.parse16 0x2000#64) = true ∧
      (ready .bittrick slack).FirstUnreadable (addressOf (.parse16 0x2000#64)) (footprint (.parse16 0x2000#64)) 12 ∧
      footprint (.setTier 1#2) = 0 ∧ footprint (.parseN 0x200C#64 0#5) = 0 ∧ (ready .bittrick slack).fcode ≠ .bufferFault := by
  unfold State.FirstUnreadable State.Readable; decide
theorem witness_FootprintDoesNotWrap :
    let s : State := { ready .bittrick (codesAt 0xFFFC [50, 48, 50, 54]) with par := ⟨16, .vecExt⟩ }
    Instr.wf (.parse8 0xFFFC#64) = true ∧ addressOf (.parse8 0xFFFC#64) < 2 ^ s.par.aw ∧
      2 ^ s.par.aw < addressOf (.parse8 0xFFFC#64) + footprint (.parse8 0xFFFC#64) ∧
      s.Readable (addressOf (.parse8 0xFFFC#64)) (2 ^ s.par.aw - addressOf (.parse8 0xFFFC#64)) := by
  unfold State.Readable; decide
theorem witness_OnlyResetLeavesTheFaultState :
    { State.reset with phase := .fault }.phase = .fault ∧ { State.reset with phase := .fault }.host = [] ∧
      { State.reset with phase := .fault, host := [.reset] }.host = .reset :: [] ∧
      after (fun s => s.phase) (step { State.reset with phase := .fault, host := [.store 0 0#8] }) = some .fault := by decide
theorem witness_RstResetsFromAnyState :
    { State.reset with phase := .fault, tierLock := true, host := [.reset] }.host = .reset :: [] ∧
      after (fun s => (s.phase, s.tierLock)) (step { State.reset with phase := .fault, tierLock := true, host := [.reset] }) =
        some (.idle, false) := by decide
theorem witness_TierIsFrozenOnceLocked :
    Tier.vecExt.rank ≤ State.reset.par.tierMax.rank ∧ State.reset.tierLock = false ∧
      Instr.isParse (.parse4 0#64) = true ∧ Instr.wf (.parse4 0#64) = true ∧
      after (fun s => (s.tier, s.tierLock))
        (step { presenting (ready .vecBase digits16) 0x00000002#32 0x1000#64 with tierLock := true }) = some (.vecBase, true) := by
  decide
theorem witness_EveryStepKeepsTheInvariant :
    (presenting State.reset 0x00000003#32 0x1000#64).Inv ∧
      after (fun s => s.fcode) (step (presenting State.reset 0x00000003#32 0x1000#64)) = some .bufferFault := by decide
theorem witness_MemReadIsLittleEndian :
    (ready .bittrick (codesAt 7 [52, 53])).Holds 7 [52#8, 53#8] ∧ (ready .bittrick slack).FirstUnreadable 0x200B 4 1 := by
  unfold State.FirstUnreadable State.Readable State.Holds; decide
theorem witness_OnlyTheHostWritesTheBuffer :
    after (fun s => s.mem) (step (presenting (ready .vecBase slack) 0x00000003#32 0x2000#64)) = some slack := by decide
theorem witness_HostActsOnOneByte :
    State.reset.phase ≠ .busy ∧ { State.reset with host := [.store 5 1#8] }.host = .store 5 1#8 :: [] ∧ 5 < 2 ^ State.reset.par.aw ∧
      Memory.wf State.reset.mem = true ∧ { State.reset with host := [.unmap 5] }.host = .unmap 5 :: [] := by decide
theorem witness_DecimalValueIsThePositionalSum :
    allDigits (List.replicate 16 0x39#8) = true ∧ (List.replicate 16 0x39#8).length ≤ 16 := by decide
theorem witness_SwarL1CombinesNibblePairs :
    isDigit ((0x3837363534333231#64).extractLsb' (16 * 3) 8) = true ∧
      isDigit ((0x3837363534333231#64).extractLsb' (16 * 3 + 8) 8) = true := by decide
theorem witness_VectorLaneOperations :
    (∀ i, i < 16 → lane 8 i 0x09090909090909090909090909090909#128 ≤ 9) ∧
      (∀ j, j < 8 → lane 16 j 0x00630063006300630063006300630063#128 ≤ 99) ∧
      (∀ k, k < 4 → lane 32 k 0x0000270F0000270F0000270F0000270F#128 ≤ 9999) ∧
      (∀ j, j < 8 → lane 16 j 0x270F270F270F270F270F270F270F270F#128 ≤ 9999) ∧
      (lane 32 0 0x05F5E0FF05F5E0FF05F5E0FF05F5E0FF#128 = 99999999 ∧ lane 32 1 0x05F5E0FF05F5E0FF05F5E0FF05F5E0FF#128 = 99999999) := by
  decide
theorem witness_VectorLaneOperations_loads :
    (ready .vecBase digits16).Readable 0x1000 16 ∧ (ready .vecBase slack).FirstUnreadable 0x2000 16 12 ∧
      (ready .vecBase digits16).Readable 0x1000 8 ∧ (ready .vecBase slack).FirstUnreadable 0x2005 8 7 ∧
      vLoad16 (ready .vecBase digits16) 0x1000 = .ok 0x36353433323130393837363534333231#128 ∧
      vLoad8Dup (ready .vecBase digits16) 0x1000 = .ok 0x38373635343332313837363534333231#128 := by
  unfold State.FirstUnreadable State.Readable; decide
theorem witness_KernelFamiliesAgreeOnDigits :
    (ready .bittrick digits16).Readable 0x1000 8 ∧ allDigits (bytesAt (ready .bittrick digits16) 0x1000 8) = true ∧
      (ready .bittrick digits16).Readable 0x1000 16 ∧ allDigits (bytesAt (ready .bittrick digits16) 0x1000 16) = true :=
  ⟨readable_digits16 (by decide) _, by decide, readable_digits16 (by decide) _, by decide⟩
theorem witness_ThirteenBytesAreEightFourAndOne : (ready .vecExt digits16).Readable 0x1000 13 :=
  readable_digits16 (by decide) _
/-- Sixteen '9' in the register, and "1234567890123456" in the buffer. -/
theorem witness_VectorKernelIsRightOnDigits :
    (∀ i, i < 16 → 9 ≤ 9 ∧ lane 8 i 0x39393939393939393939393939393939#128 = 0x30 + 9) ∧
      (ready .vecBase digits16).Readable 0x1000 16 ∧ allDigits (bytesAt (ready .vecBase digits16) 0x1000 16) = true ∧
      (ready .vecBase digits16).Readable 0x1000 8 ∧ allDigits (bytesAt (ready .vecBase digits16) 0x1000 8) = true :=
  ⟨by decide, readable_digits16 (by decide) _, by decide, readable_digits16 (by decide) _, by decide⟩
theorem witness_DispatchSelectsTheKernelByTier :
    (ready .bittrick []).tier = .bittrick ∧ (ready .vecBase []).tier = .vecBase ∧ (ready .vecExt []).tier = .vecExt ∧
      16 ≤ (stageInit 0 16#5 State.reset.tr).rem.toNat ∧ 8 ≤ (stageInit 0 8#5 State.reset.tr).rem.toNat ∧
      4 ≤ (stageInit 0 4#5 State.reset.tr).rem.toNat ∧ (7#5).toNat < 8 ∧ Instr.isParse (.parseN 0#64 0#5) = true := by decide
/-- Both ends of the range of lengths; the expected value is 95_test_vectors.md 2.5. -/
theorem witness_EveryLengthDecomposesAsItsRow :
    1 ≤ (1#5).toNat ∧ (16#5).toNat ≤ 16 ∧
      foldChunks (ready .vecBase digits16) 0x1000 State.reset.tr 0#64 (decomposition 15) = .ok 123456789012345#64 := by decide
/-- "99999999" and "9999" as packed words, and "1234567890123456" in the buffer. -/
theorem witness_BitTrickKernelIsRightOnDigits :
    (∀ i, i < 8 → 9 ≤ 9 ∧ ((0x3939393939393939#64).extractLsb' (8 * i) 8).toNat = 0x30 + 9) ∧
      (∀ i, i < 4 → 9 ≤ 9 ∧ ((0x39393939#64).extractLsb' (8 * i) 8).toNat = 0x30 + 9) ∧
      (0x39393939#64).extractLsb' 32 32 = 0#32 ∧
      (ready .bittrick digits16).Readable 0x1000 4 ∧ allDigits (bytesAt (ready .bittrick digits16) 0x1000 4) = true ∧
      (ready .bittrick digits16).Readable 0x1000 8 ∧ allDigits (bytesAt (ready .bittrick digits16) 0x1000 8) = true ∧
      (ready .bittrick digits16).Readable 0x1000 16 ∧ allDigits (bytesAt (ready .bittrick digits16) 0x1000 16) = true :=
  ⟨by decide, by decide, by decide, readable_digits16 (by decide) _, by decide, readable_digits16 (by decide) _, by decide,
    readable_digits16 (by decide) _, by decide⟩
/-- Every value of TIER, PHASE and FCODE is held by some state. -/
theorem witness_StatusRegistersShowTheState :
    State.reset.tier = .bittrick ∧ (ready .vecBase []).tier = .vecBase ∧ (ready .vecExt []).tier = .vecExt ∧
      State.reset.phase = .idle ∧ { State.reset with phase := .busy }.phase = .busy ∧
      { State.reset with phase := .fault }.phase = .fault ∧ State.reset.fcode = .none ∧
      { State.reset with fcode := .bufferFault }.fcode = .bufferFault ∧
      { State.reset with fcode := .illegalCommand }.fcode = .illegalCommand := by decide
/-- STATUS of a BufferFault and TIERCTL of a locked VEC_EXT, put together from the table of R34. -/
theorem test_status_bits :
    { State.reset with phase := .fault, fcode := .bufferFault }.status = 0b00010010#8 ∧
      { State.reset with tier := .vecExt, tierLock := true }.tierctl = 0b110#3 := by decide
theorem witness_IdleBlockStaysAsItIs : State.reset.phase = .idle ∧ State.reset.host = [] := by decide

end Sys2Proof.Tests
end

section
/-! The law of `decimalValue` as a sum over positions (00_scope.md R10). -/

namespace Sys2Proof.Machine

/-- The first byte is the summand at position 0; every later byte of `b :: bs` has the weight it has in `bs`. -/
theorem decimalValue_eq_sum (bs : List Byte) :
    decimalValue bs = ∑ i : Fin bs.length, (bs[i].toNat - 0x30) * 10 ^ (bs.length - 1 - i.val) := by
  induction bs with
  | nil => rfl
  | cons b bs ih =>
    have weight (i : Fin bs.length) : (b :: bs).length - 1 - i.succ.val = bs.length - 1 - i.val := by
      simp only [List.length_cons, Fin.val_succ]; omega
    refine .trans ?_ (Fin.sum_univ_succ _).symm
    simp only [weight]
    rw [decimalValue, ih]
    rfl

/-- Fewer digits than the bound allows are worth less: the bound of `decimalValue_lt` grows with the length. -/
theorem decimalValue_lt_of_length_le {bs : List Byte} {n : Nat} (hd : allDigits bs = true) (hn : bs.length ≤ n) :
    decimalValue bs < 10 ^ n :=
  (decimalValue_lt hd).trans_le (Nat.pow_le_pow_right (by decide) hn)

/-- Settles O30: the sum by induction on the bytes, the bound from `10 ^ 16 < 2 ^ 64`. -/
theorem decimalValueIsThePositionalSum : Obligations.DecimalValueIsThePositionalSum := by
  refine ⟨decimalValue_eq_sum, fun bs hd hn => ?_⟩
  have h16 : decimalValue bs < 10 ^ 16 := decimalValue_lt_of_length_le hd hn
  exact ⟨Nat.le_pred_of_lt h16, h16.trans (by norm_num)⟩

end Sys2Proof.Machine
end

section
/-! TIER_LOCK and TIER over commands and steps (10_state.md R22). -/

namespace Sys2Proof.Machine

/-- A legal parse command locks the tier also where it faults (R22: its acceptance is enough). -/
theorem exec_parse_locks_tier {i : Instr} (s : State) (hp : i.isParse = true) (hw : i.wf = true) :
    ∃ u, exec i s = .next u ∧ u.tierLock = true := by
  rcases (footprint i).eq_zero_or_pos with hf | hf
  · obtain ⟨a, rfl⟩ := parse_zero hw hp hf
    exact ⟨_, exec_parseN_zero a s, rfl⟩
  · rcases readable_or_first s (addressOf i) (footprint i) with hr | ⟨k, hk⟩
    · exact ⟨_, exec_parse_ok hf hr, rfl⟩
    · exact ⟨_, exec_parse_fault hk, rfl⟩

/-- A command that ends while the tier is locked leaves TIER_LOCK and TIER: SETTIER, the only writer of TIER, responds
from an unlocked state alone. -/
theorem Ending.keeps_locked_tier {s t : State} (h : Ending s t) (hl : s.tierLock = true) :
    t.tierLock = true ∧ t.tier = s.tier := by
  cases h with
  | illegal => exact ⟨hl, rfl⟩
  | buffer f => exact ⟨rfl, rfl⟩
  | parsed v => exact ⟨rfl, rfl⟩
  | tierSet t _ unlocked => simp [hl] at unlocked

/-- A step other than reset keeps a locked tier. -/
theorem Stepped.keeps_locked_tier {s t : State} (h : Stepped s t) (hl : s.tierLock = true)
    (hr : ∀ rest, s.host ≠ .reset :: rest) : t.tierLock = true ∧ t.tier = s.tier := by
  cases h with
  | reset rest action => exact absurd action (hr rest)
  | idle => exact ⟨hl, rfl⟩
  | command _ _ _ _ _ _ ending =>
    have hk := ending.keeps_locked_tier (by rwa [accept_tierLock])
    rwa [accept_tier] at hk
  | store => exact ⟨hl, rfl⟩
  | unmap => exact ⟨hl, rfl⟩

/-- Settles O24: the parse commands by whether their footprint is empty and can be read, the frozen TIER by the cases of a
step. -/
theorem tierIsFrozenOnceLocked : Obligations.TierIsFrozenOnceLocked :=
  ⟨fun _ _ hm hl => ⟨_, exec_setTier_legal hm hl, rfl⟩,
    fun _ s hp hw => exec_parse_locks_tier s hp hw,
    fun _ _ h hl hr => (step_cases h).keeps_locked_tier hl hr⟩

end Sys2Proof.Machine
end

section
/-! The digit-buffer memory (20_memory.md): what a read answers, which footprints cannot be read, and who writes it. -/

namespace Sys2Proof.Machine

/-- The two ways a byte cannot be read (R51). -/
theorem readByte_eq_none_iff (s : State) (a : Nat) :
    s.readByte a = none ↔ 2 ^ s.par.aw ≤ a ∨ Memory.read s.mem a = none := by
  rw [State.readByte]
  split
  · rename_i h; simp [Nat.not_le.2 h]
  · rename_i h; simp [Nat.not_lt.1 h]

/-- The first byte is the summand at position 0; every later byte of `b :: bs` stands 8 bits higher than in `bs`. -/
theorem littleEndian_eq_sum (bs : List Byte) :
    littleEndian bs = ∑ i : Fin bs.length, bs[i].toNat * 2 ^ (8 * i.val) := by
  induction bs with
  | nil => rfl
  | cons b bs ih =>
    have higher (i : Fin bs.length) :
        2 ^ 8 * (bs[i].toNat * 2 ^ (8 * i.val)) = bs[i].toNat * 2 ^ (8 * i.succ.val) := by
      rw [Fin.val_succ, Nat.mul_add_one, Nat.pow_add]; ring
    refine .trans ?_ (Fin.sum_univ_succ _).symm
    calc littleEndian (b :: bs)
        = b.toNat + 2 ^ 8 * ∑ i : Fin bs.length, bs[i].toNat * 2 ^ (8 * i.val) := by rw [littleEndian, ih]
      _ = b.toNat * 2 ^ (8 * 0) + ∑ i : Fin bs.length, bs[i].toNat * 2 ^ (8 * i.succ.val) := by
          simp only [Finset.mul_sum, higher, Nat.mul_zero, Nat.pow_zero, Nat.mul_one]

/-- `MemRead` over bytes the buffer holds. -/
theorem State.Holds.memRead {s : State} {a : Nat} {bs : List Byte} (h : s.Holds a bs) :
    memRead s a bs.length = .ok (littleEndian bs) := by
  rw [memRead_ok h.readable, h.bytesAt]

/-- Settles O27: a load answers `littleEndian` of its bytes, which is the sum over positions, or the lowest failing
address. -/
theorem memReadIsLittleEndian : Obligations.MemReadIsLittleEndian :=
  ⟨readByte_eq_none_iff, fun _ _ bs h => littleEndian_eq_sum bs ▸ h.memRead, fun _ _ _ _ h => memRead_error h⟩

/-- A command leaves the buffer as it was, whichever way it ends (R59). -/
theorem Ending.sameOutside {s t : State} (h : Ending s t) : s.SameOutside t := by
  cases h with
  | illegal => exact ⟨rfl, fun _ => rfl, rfl, rfl⟩
  | buffer f => exact ⟨rfl, fun _ => rfl, rfl, rfl⟩
  | parsed v => exact ⟨rfl, fun _ => rfl, rfl, rfl⟩
  | tierSet t => exact ⟨rfl, fun _ => rfl, rfl, rfl⟩

/-- A step other than the host's two acts on the buffer leaves it as it was. -/
theorem Stepped.keeps_buffer {s t : State} (h : Stepped s t) (hs : ∀ a b rest, s.host ≠ .store a b :: rest)
    (hu : ∀ a rest, s.host ≠ .unmap a :: rest) : t.mem = s.mem ∧ ∀ x, t.readByte x = s.readByte x := by
  cases h with
  | reset => exact ⟨rfl, fun _ => rfl⟩
  | idle => exact ⟨rfl, fun _ => rfl⟩
  | command _ _ _ _ _ _ ending =>
    obtain ⟨hm, hr, -⟩ := ending.sameOutside
    exact ⟨hm.trans (accept_mem s), fun x => (hr x).trans (accept_readByte s x)⟩
  | store a b rest action => exact absurd action (hs a b rest)
  | unmap a rest action => exact absurd action (hu a rest)

/-- Settles O28, by the cases of a step. -/
theorem onlyTheHostWritesTheBuffer : Obligations.OnlyTheHostWritesTheBuffer :=
  fun _ _ h hs hu => (step_cases h).keeps_buffer hs hu

/-- A command that consumes nothing ends with FCODE as it was, or with IllegalCommand. -/
theorem exec_no_footprint_fcode {i : Instr} (s : State) (hf : footprint i = 0) :
    ∃ t, exec i s = .next t ∧ (t.fcode = .illegalCommand ∨ t.fcode = s.fcode) := by
  rcases exec_no_footprint s hf with e | ⟨t, -, -, -, e⟩ | ⟨a, -, e⟩
  · exact ⟨_, e, .inl rfl⟩
  · exact ⟨_, e, .inr rfl⟩
  · exact ⟨_, e, .inr rfl⟩

/-- Settles O19: the lowest unreadable byte of the footprint is the one reported; without a footprint no byte is. -/
theorem unreadableByteRaisesBufferFault : Obligations.UnreadableByteRaisesBufferFault := by
  refine ⟨fun i s k _ h => ⟨_, exec_parse_fault h, faultTaken_raise_lockTier _ s, rfl⟩, fun i s hf hs => ?_⟩
  obtain ⟨t, e, hi | hk⟩ := exec_no_footprint_fcode s hf
  · exact ⟨t, e, by simp [hi]⟩
  · exact ⟨t, e, hk ▸ hs⟩

/-- An unreadable byte in a range bounds the lowest one. -/
theorem exists_firstUnreadable {s : State} {a n j : Nat} (hj : j < n) (h : s.readByte (a + j) = none) :
    ∃ k, s.FirstUnreadable a n k ∧ k ≤ j := by
  rcases readable_or_first s a n with hr | ⟨k, hk⟩
  · simpa [h] using hr j hj
  · refine ⟨k, hk, Nat.le_of_not_lt fun hlt => ?_⟩
    obtain ⟨-, -, hbelow⟩ := hk
    simpa [h] using hbelow j hlt

/-- The lowest unreadable byte does not lie among readable ones. -/
theorem State.FirstUnreadable.le_of_readable {s : State} {a n k m : Nat} (h : s.FirstUnreadable a n k)
    (hr : s.Readable a m) : m ≤ k := by
  obtain ⟨-, hnone, -⟩ := h
  refine Nat.le_of_not_lt fun hlt => ?_
  simpa [hnone] using hr k hlt

/-- The first address beyond the top goes out on the wires as 0 (R58). -/
theorem wireAddr_top (p : Params) : wireAddr p (2 ^ p.aw) = 0#64 := by
  rw [wireAddr, Nat.mod_self]

/-- Settles O20: the byte at address `2^AW` is in the footprint and cannot be read, and it is the lowest such byte where all
below it can be. -/
theorem footprintDoesNotWrap : Obligations.FootprintDoesNotWrap := by
  intro i s _ ha hcross
  have htop : addressOf i + (2 ^ s.par.aw - addressOf i) = 2 ^ s.par.aw := by omega
  have hnone : s.readByte (addressOf i + (2 ^ s.par.aw - addressOf i)) = none :=
    (readByte_eq_none_iff s _).2 (.inl htop.ge)
  obtain ⟨k, hk, hle⟩ := exists_firstUnreadable (n := footprint i) (by omega) hnone
  refine ⟨_, exec_parse_fault hk, rfl, rfl, fun hr => ?_⟩
  have hk_top : addressOf i + k = 2 ^ s.par.aw := by rw [Nat.le_antisymm hle (hk.le_of_readable hr), htop]
  exact (congrArg (wireAddr s.par) hk_top).trans (wireAddr_top s.par)

end Sys2Proof.Machine
end

section
/-! Command words (30_encoding.md): the four fields of R81, the worked encodings of R93, the illegal commands of R86, and
the commands of R87 that complete with an unspecified value. -/

namespace Sys2Proof

/-- The word as a number (R81): each field shifted to its place. -/
theorem commandWord_toNat (zero : BitVec 21) (tier : BitVec 2) (len : BitVec 5) (op : BitVec 4) :
    (commandWord zero tier len op).toNat =
      zero.toNat * 2 ^ 11 + tier.toNat * 2 ^ 9 + len.toNat * 2 ^ 4 + op.toNat := by
  simp only [commandWord, BitVec.toNat_append]
  rw [← Nat.shiftLeft_add_eq_or_of_lt tier.isLt, ← Nat.shiftLeft_add_eq_or_of_lt len.isLt,
    ← Nat.shiftLeft_add_eq_or_of_lt op.isLt]
  simp only [Nat.shiftLeft_eq]
  omega

/-- A field of a word is the value that its bits have as a number. -/
theorem extractLsb'_eq_of_toNat {start w : Nat} {cw : CmdWord} {v : BitVec w}
    (h : cw.toNat / 2 ^ start % 2 ^ w = v.toNat) : cw.extractLsb' start w = v :=
  BitVec.eq_of_toNat_eq (by rw [BitVec.extractLsb'_toNat, Nat.shiftRight_eq_div_pow, h])

@[simp] theorem fieldZero_commandWord (zero : BitVec 21) (tier : BitVec 2) (len : BitVec 5) (op : BitVec 4) :
    fieldZero (commandWord zero tier len op) = zero :=
  extractLsb'_eq_of_toNat (by rw [commandWord_toNat]; omega)

@[simp] theorem fieldTier_commandWord (zero : BitVec 21) (tier : BitVec 2) (len : BitVec 5) (op : BitVec 4) :
    fieldTier (commandWord zero tier len op) = tier :=
  extractLsb'_eq_of_toNat (by rw [commandWord_toNat]; omega)

@[simp] theorem fieldLen_commandWord (zero : BitVec 21) (tier : BitVec 2) (len : BitVec 5) (op : BitVec 4) :
    fieldLen (commandWord zero tier len op) = len :=
  extractLsb'_eq_of_toNat (by rw [commandWord_toNat]; omega)

@[simp] theorem fieldOp_commandWord (zero : BitVec 21) (tier : BitVec 2) (len : BitVec 5) (op : BitVec 4) :
    fieldOp (commandWord zero tier len op) = op :=
  extractLsb'_eq_of_toNat (by rw [commandWord_toNat]; omega)

/-- Settles O3: the number of the word, from which each field is read back by division. -/
theorem commandWordFields : Obligations.CommandWordFields :=
  fun zero tier len op => ⟨commandWord_toNat zero tier len op, fieldZero_commandWord .., fieldTier_commandWord ..,
    fieldLen_commandWord .., fieldOp_commandWord ..⟩

/-- Settles O4: the fields of each row are literals, so the decoder computes its answer whatever the address. -/
theorem workedEncodingsDecode : Obligations.WorkedEncodingsDecode :=
  ⟨fun _ => rfl, fun _ => rfl, fun _ => rfl, rfl, rfl, rfl, rfl, rfl, rfl, rfl, rfl, rfl,
    fun _ => rfl, fun _ => rfl, fun _ => rfl, fun _ => rfl, fun _ => rfl⟩

theorem lenOk_eq_false_iff (l : BitVec 5) : lenOk l = false ↔ 17 ≤ l.toNat := by
  rw [lenOk, decide_eq_false_iff_not, Nat.not_le, Nat.lt_iff_add_one_le]

theorem tierOk_eq_false_iff (t : BitVec 2) : tierOk t = false ↔ t = 3#2 := by
  rw [tierOk, bne_eq_false_iff_eq]

/-- Every tier but the reserved 3 is the encoding of one (R84). -/
theorem exists_toBits_of_tierOk {b : BitVec 2} (h : tierOk b = true) : ∃ t : Tier, b = t.toBits := by
  have key : ∀ b : BitVec 2, tierOk b = true → b = 0#2 ∨ b = 1#2 ∨ b = 2#2 := by decide
  rcases key b h with rfl | rfl | rfl
  · exact ⟨.bittrick, rfl⟩
  · exact ⟨.vecBase, rfl⟩
  · exact ⟨.vecExt, rfl⟩

/-- The command a word decodes to is well formed. -/
theorem Decoded.wf {cw : CmdWord} {a : Addr} {i : Instr} (h : Decoded cw a i) : i.wf = true := by
  cases h with
  | setTier _ _ _ ok => exact ok
  | parse4 | parse8 | parse16 => rfl
  | parseN _ _ _ ok => exact ok

/-- A word with `op` 1 that decodes is SETTIER with the word's `tier`. -/
theorem Decoded.eq_setTier {cw : CmdWord} {a : Addr} {i : Instr} (h : Decoded cw a i) (ho : fieldOp cw = 1#4) :
    i = .setTier (fieldTier cw) := by
  cases h with
  | setTier => rfl
  | parse4 op | parse8 op | parse16 op | parseN op => rw [ho] at op; exact absurd op (by decide)

end Sys2Proof

namespace Sys2Proof.Machine

/-- The words the decoder refuses, and SETTIER with an unimplemented tier or while the tier is locked: what of R86 stands in
the decoder and what in SETTIER's meaning (log entry 8). -/
def IllegalIn (s : State) (cw : CmdWord) : Prop :=
  IllegalWord cw ∨ fieldOp cw = 1#4 ∧ (s.par.tierMax.rank < (fieldTier cw).toNat ∨ s.tierLock = true)

/-- A presented command that is illegal raises IllegalCommand, at decode or in SETTIER's meaning. -/
theorem IllegalIn.step_eq {s : State} {cw : CmdWord} {a : Addr} {rest : List HostAction} (h : IllegalIn s cw)
    (hp : s.phase = .idle) (hh : s.host = .present cw a :: rest) : step s = .next (raise .illegalCommand (accept s)) := by
  by_cases hw : IllegalWord cw
  · exact step_present_illegal hp hh hw
  · obtain ⟨ho, hs⟩ := h.resolve_left hw
    obtain ⟨i, hd, e⟩ := step_present_legal hp hh hw
    rw [e, hd.eq_setTier ho]
    exact exec_setTier_illegal (.inr hs)

/-- A legal parse command ends in a response or in a BufferFault. -/
theorem exec_parse_ends {i : Instr} (s : State) (hp : i.isParse = true) (hw : i.wf = true) :
    (∃ v, exec i s = .next (respond v (lockTier s))) ∨ ∃ f, exec i s = .next (raise (.bufferFault f) (lockTier s)) := by
  rcases (footprint i).eq_zero_or_pos with hf | hf
  · obtain ⟨a, rfl⟩ := parse_zero hw hp hf
    exact .inl ⟨_, exec_parseN_zero a s⟩
  · rcases readable_or_first s (addressOf i) (footprint i) with hr | ⟨k, hk⟩
    · exact .inl ⟨_, exec_parse_ok hf hr⟩
    · exact .inr ⟨_, exec_parse_fault hk⟩

/-- `t` is what a command that does not raise IllegalCommand leaves of `s`: it completed with FCODE as it was, or raised
BufferFault. -/
def CompletesOrBufferFaults (s t : State) : Prop :=
  t.phase = .idle ∧ t.fcode = s.fcode ∨ t.fcode = .bufferFault

/-- A presented command that is not illegal completes or raises BufferFault: a parse command by `exec_parse_ends`, SETTIER
because its tier is an implemented one and not locked. -/
theorem step_of_not_illegalIn {s : State} {cw : CmdWord} {a : Addr} {rest : List HostAction} (h : ¬ IllegalIn s cw)
    (hp : s.phase = .idle) (hh : s.host = .present cw a :: rest) :
    ∃ t, step s = .next t ∧ CompletesOrBufferFaults s t := by
  obtain ⟨hw, hs⟩ := not_or.1 h
  obtain ⟨i, hd, e⟩ := step_present_legal hp hh hw
  rw [e]
  cases hparse : i.isParse with
  | true =>
    rcases exec_parse_ends (accept s) hparse hd.wf with ⟨v, e⟩ | ⟨f, e⟩
    · exact ⟨_, e, .inl ⟨rfl, rfl⟩⟩
    · exact ⟨_, e, .inr rfl⟩
  | false =>
    cases hd with
    | setTier op _ _ ok =>
      simp only [op, true_and, not_or, Nat.not_lt, Bool.not_eq_true] at hs
      obtain ⟨himpl, hunlocked⟩ := hs
      obtain ⟨t, ht⟩ := exists_toBits_of_tierOk ok
      rw [ht] at himpl ⊢
      exact ⟨_, exec_setTier_legal himpl hunlocked, .inl ⟨rfl, rfl⟩⟩
    | parse4 | parse8 | parse16 | parseN => cases hparse

/-- R86's list, (a) to (e), names exactly the commands that the decoder or SETTIER's meaning refuses: the same conditions in
another order, with `lenOk`, `tierOk` and the rank read as numbers. -/
theorem illegalIn_iff (s : State) (cw : CmdWord) :
    (fieldOp cw = 0#4 ∨ 6 ≤ (fieldOp cw).toNat ∨
        fieldZero cw ≠ 0#21 ∨ (fieldOp cw ≠ 5#4 ∧ fieldLen cw ≠ 0#5) ∨ (fieldOp cw ≠ 1#4 ∧ fieldTier cw ≠ 0#2) ∨
        (fieldOp cw = 5#4 ∧ 17 ≤ (fieldLen cw).toNat) ∨
        (fieldOp cw = 1#4 ∧ (fieldTier cw = 3#2 ∨ s.par.tierMax.toBits.toNat < (fieldTier cw).toNat)) ∨
        (fieldOp cw = 1#4 ∧ s.tierLock = true)) ↔ IllegalIn s cw := by
  simp only [IllegalIn, IllegalWord, lenOk_eq_false_iff, tierOk_eq_false_iff, Tier.rank]
  tauto

/-- Settles O6: R86's list is `IllegalIn`, whose members raise IllegalCommand and whose complement does not. -/
theorem illegalCommandsAreExactlyThese : Obligations.IllegalCommandsAreExactlyThese := by
  intro s cw a rest hp hh
  rw [illegalIn_iff]
  refine ⟨fun h => ⟨_, h.step_eq hp hh, faultTaken_raise .illegalCommand _, rfl⟩, fun h => ?_⟩
  obtain ⟨t, e, ⟨hphase, hfcode⟩ | hfcode⟩ := step_of_not_illegalIn h hp hh
  · exact ⟨t, e, fun hi => hfcode ▸ hi, by simp [hphase]⟩
  · exact ⟨t, e, by simp [hfcode], fun _ => hfcode⟩

theorem parseValue_of_not_digits {op : ParseOp} {tier : Tier} {bs : List Byte} (h : allDigits bs = false) :
    parseValue op tier bs = Config.UNSPEC op tier bs := by
  simp [parseValue, h]

/-- A parse command over readable bytes that are not all digits responds with UNSPEC of them (R87). -/
theorem exec_parse_not_digits {i : Instr} {s : State} (hf : 0 < footprint i)
    (hr : s.Readable (addressOf i) (footprint i)) (hd : allDigits (bytesAt s (addressOf i) (footprint i)) = false) :
    ∃ t, exec i s = .next t ∧
      s.ParseDone t (Config.UNSPEC (parseOpOf i) s.tier (bytesAt s (addressOf i) (footprint i))) :=
  ⟨_, exec_parse_ok hf hr, parseValue_of_not_digits hd ▸ parseDone_respond _ s⟩

/-- Settles O13: length 0 by its own branch of PARSEN, the four widths by `exec_parse_not_digits`. -/
theorem nonDigitsCompleteUnspecified : Obligations.NonDigitsCompleteUnspecified := by
  intro s a len hpos hle
  have hlen : footprint (.parseN a len) = len.toNat := footprint_parseN a hle
  refine ⟨⟨_, exec_parseN_zero a s, parseDone_respond _ s⟩,
    exec_parse_not_digits (i := .parse4 a) (by simp [footprint]),
    exec_parse_not_digits (i := .parse8 a) (by simp [footprint]),
    exec_parse_not_digits (i := .parse16 a) (by simp [footprint]), ?_⟩
  rw [← hlen] at hpos ⊢
  exact exec_parse_not_digits hpos

end Sys2Proof.Machine
end

section
/-! The bit-trick levels on any word, lane by lane (40_bittrick_kernel.md R112 to R114), and on digits (R121). -/

namespace Sys2Proof.Machine

/-- Byte `i` of a word: byte 0 is the lowest, as LOAD packs them (R111). -/
def wordByte (w : Word) (i : Nat) : Nat := (w.extractLsb' (8 * i) 8).toNat

theorem wordByte_lt (w : Word) (i : Nat) : wordByte w i < 256 := BitVec.isLt _

theorem wordByte_eq (w : Word) (i : Nat) : wordByte w i = w.toNat / 2 ^ (8 * i) % 2 ^ 8 := by
  rw [wordByte, BitVec.extractLsb'_toNat, Nat.shiftRight_eq_div_pow]

/-- A word is put together from its bytes, in the form the laws of the levels take it. -/
theorem word_eq_wordBytes (w : Word) : w = BitVec.ofNat 64 (wordByte w 0 + 256 * (wordByte w 1 + 256 * (wordByte w 2 +
    256 * (wordByte w 3 + 256 * (wordByte w 4 + 256 * (wordByte w 5 + 256 * (wordByte w 6 + 256 * wordByte w 7))))))) := by
  have hw := w.isLt
  refine eq_ofNat_of_toNat ?_
  simp only [wordByte_eq]
  omega

/-- Lane `j` of L1 on `w` (R112). -/
def pairValue (w : Word) (j : Nat) : Nat := 10 * (wordByte w (2 * j) % 16) + wordByte w (2 * j + 1) % 16

/-- Lane `k` of L2 after L1 on `w` (R113). -/
def quadValue (w : Word) (k : Nat) : Nat :=
  nibbles4 (wordByte w (4 * k)) (wordByte w (4 * k + 1)) (wordByte w (4 * k + 2)) (wordByte w (4 * k + 3))

theorem pairValue_le (w : Word) (j : Nat) : pairValue w j ≤ 165 := by unfold pairValue; omega

theorem quadValue_le (w : Word) (k : Nat) : quadValue w k ≤ 16665 := nibbles4_le ..

theorem swarL1_eq_joinLanes (w : Word) : swarL1 w = BitVec.ofNat 64 (joinLanes 16 ((List.range 4).map (pairValue w))) := by
  have hlt (j : Nat) : pairValue w j < 65536 := (pairValue_le w j).trans_lt (by decide)
  have e := swarL1_bytes (wordByte_lt w 0) (wordByte_lt w 1) (wordByte_lt w 2) (wordByte_lt w 3) (wordByte_lt w 4)
    (wordByte_lt w 5) (wordByte_lt w 6) (wordByte_lt w 7)
  rw [← word_eq_wordBytes] at e
  refine eq_ofNat_of_toNat (e.trans ?_)
  exact (joinLanes_halves (hlt 0) (hlt 1) (hlt 2) (hlt 3)).symm

theorem swarL2_swarL1_toNat (w : Word) : (swarL2 (swarL1 w)).toNat = quadValue w 0 + 2 ^ 32 * quadValue w 1 := by
  have e := swarL2_L1_bytes (wordByte_lt w 0) (wordByte_lt w 1) (wordByte_lt w 2) (wordByte_lt w 3) (wordByte_lt w 4)
    (wordByte_lt w 5) (wordByte_lt w 6) (wordByte_lt w 7)
  rwa [← word_eq_wordBytes] at e

theorem swarL2_swarL1_eq_joinLanes (w : Word) :
    swarL2 (swarL1 w) = BitVec.ofNat 64 (joinLanes 32 ((List.range 2).map (quadValue w))) := by
  have h0 := quadValue_le w 0
  have h1 := quadValue_le w 1
  refine eq_ofNat_of_toNat ((swarL2_swarL1_toNat w).trans ?_)
  change _ = joinLanes 32 [quadValue w 0, quadValue w 1]
  simp only [joinLanes]
  omega

theorem swarL3_swarL2_swarL1_toNat (w : Word) :
    (swarL3 (swarL2 (swarL1 w))).toNat = 10000 * quadValue w 0 + quadValue w 1 := by
  have e := swarL3_L2_L1_bytes (wordByte_lt w 0) (wordByte_lt w 1) (wordByte_lt w 2) (wordByte_lt w 3) (wordByte_lt w 4)
    (wordByte_lt w 5) (wordByte_lt w 6) (wordByte_lt w 7)
  rwa [← word_eq_wordBytes] at e

theorem swarL1_lane (w : Word) {j : Nat} (hj : j < 4) : ((swarL1 w).extractLsb' (16 * j) 16).toNat = pairValue w j := by
  have hle := pairValue_le w j
  rw [swarL1_eq_joinLanes, word_lane (i := j) (by simp) (by simpa using hj) rfl, List.getElem_map, List.getElem_range,
    Nat.mod_eq_of_lt (by omega)]

theorem swarL2_swarL1_lane (w : Word) {k : Nat} (hk : k < 2) :
    ((swarL2 (swarL1 w)).extractLsb' (32 * k) 32).toNat = quadValue w k := by
  have hle := quadValue_le w k
  rw [swarL2_swarL1_eq_joinLanes, word_lane (i := k) (by simp) (by simpa using hk) rfl, List.getElem_map, List.getElem_range,
    Nat.mod_eq_of_lt (by omega)]

theorem toNat_and_0x0F (b : Byte) : (b &&& 0x0F#8).toNat = b.toNat % 16 := by
  rw [BitVec.toNat_and]
  exact land_15 _

/-- A lane of L1 as R112 writes it, by AND of bytes. -/
theorem pairValue_eq (w : Word) (j : Nat) : pairValue w j =
    10 * (w.extractLsb' (16 * j) 8 &&& 0x0F#8).toNat + (w.extractLsb' (16 * j + 8) 8 &&& 0x0F#8).toNat := by
  rw [toNat_and_0x0F, toNat_and_0x0F, pairValue, wordByte, wordByte, show 8 * (2 * j) = 16 * j by omega,
    show 8 * (2 * j + 1) = 16 * j + 8 by omega]

/-- Two digit bytes make a lane of at most 99: each low nibble is a digit. -/
theorem pairValue_le_of_isDigit {w : Word} {j : Nat} (h0 : isDigit (w.extractLsb' (16 * j) 8) = true)
    (h1 : isDigit (w.extractLsb' (16 * j + 8) 8) = true) : pairValue w j ≤ 99 := by
  rw [isDigit_iff] at h0 h1
  rw [pairValue_eq, toNat_and_0x0F, toNat_and_0x0F]
  omega

/-- Settles O31: the lanes of L1 are `pairValue`, on any word. -/
theorem swarL1CombinesNibblePairs : Obligations.SwarL1CombinesNibblePairs := by
  refine ⟨fun w j hj => ?_, rfl⟩
  rw [swarL1_lane w hj]
  exact ⟨pairValue_eq w j, pairValue_le w j, pairValue_le_of_isDigit⟩

/-- Byte `i` of `w` is the digit `d i` in ASCII for the lowest `n` bytes (R9). -/
def HoldsDigits (w : Word) (d : Nat → Nat) (n : Nat) : Prop :=
  ∀ i, i < n → d i ≤ 9 ∧ wordByte w i = 0x30 + d i

/-- 0x30 has an empty low nibble, so the low nibble of a digit byte is its digit. -/
theorem HoldsDigits.nibble {w : Word} {d : Nat → Nat} {n i : Nat} (h : HoldsDigits w d n) (hi : i < n) :
    wordByte w i % 16 = d i := by
  obtain ⟨hle, hb⟩ := h i hi
  omega

theorem HoldsDigits.pairValue_eq {w : Word} {d : Nat → Nat} {n j : Nat} (h : HoldsDigits w d n) (hj : 2 * j + 1 < n) :
    pairValue w j = 10 * d (2 * j) + d (2 * j + 1) := by
  rw [pairValue, h.nibble hj, h.nibble (by omega)]

theorem HoldsDigits.quadValue_eq {w : Word} {d : Nat → Nat} {n k : Nat} (h : HoldsDigits w d n) (hk : 4 * k + 3 < n) :
    quadValue w k = 1000 * d (4 * k) + 100 * d (4 * k + 1) + 10 * d (4 * k + 2) + d (4 * k + 3) := by
  rw [quadValue, nibbles4, h.nibble hk, h.nibble (by omega), h.nibble (by omega), h.nibble (by omega)]

/-- Without its upper four bytes a word has nothing in the upper lane after L2. -/
theorem quadValue_one_of_high_zero {w : Word} (h : w.extractLsb' 32 32 = 0#32) : quadValue w 1 = 0 := by
  have hw := w.isLt
  have hhigh := congrArg BitVec.toNat h
  rw [BitVec.extractLsb'_toNat, Nat.shiftRight_eq_div_pow, BitVec.toNat_ofNat] at hhigh
  have hzero {i : Nat} (hi : 4 ≤ i) : wordByte w i = 0 := by
    have hlt : w.toNat < 2 ^ (8 * i) :=
      Nat.lt_of_lt_of_le (by omega : w.toNat < 2 ^ 32) (Nat.pow_le_pow_right (by decide) (by omega))
    rw [wordByte_eq, Nat.div_eq_of_lt hlt, Nat.zero_mod]
  simp [quadValue, nibbles4, hzero]

/-- The three levels on eight digits (R121): the two lanes of L2, 10^4 apart, are the positional sum. -/
theorem HoldsDigits.swarL3_eq_sum {w : Word} {d : Nat → Nat} (h : HoldsDigits w d 8) :
    (swarL3 (swarL2 (swarL1 w))).toNat = ∑ i : Fin 8, d i.val * 10 ^ (7 - i.val) := by
  rw [swarL3_swarL2_swarL1_toNat, h.quadValue_eq (by decide), h.quadValue_eq (by decide), Fin.sum_univ_eight]
  change _ = d 0 * 10 ^ 7 + d 1 * 10 ^ 6 + d 2 * 10 ^ 5 + d 3 * 10 ^ 4 + d 4 * 10 ^ 3 + d 5 * 10 ^ 2 + d 6 * 10 ^ 1 +
    d 7 * 10 ^ 0
  ring

/-- The first two levels on four digits under an empty upper half (R121). -/
theorem HoldsDigits.swarL2_eq_sum {w : Word} {d : Nat → Nat} (h : HoldsDigits w d 4)
    (hhigh : w.extractLsb' 32 32 = 0#32) :
    (swarL2 (swarL1 w)).toNat = ∑ i : Fin 4, d i.val * 10 ^ (3 - i.val) := by
  rw [swarL2_swarL1_toNat, quadValue_one_of_high_zero hhigh, h.quadValue_eq (by decide), Fin.sum_univ_four]
  change _ = d 0 * 10 ^ 3 + d 1 * 10 ^ 2 + d 2 * 10 ^ 1 + d 3 * 10 ^ 0
  ring

/-- What a kernel hands over for readable digits. -/
theorem KernelOk.kernelValue_eq {n : Nat} {kernel : State → Nat → Transients → Except Nat (Word × Transients)}
    (h : KernelOk n kernel) {s : State} {a : Nat} (t : Transients) (hr : s.Readable a n)
    (hd : allDigits (bytesAt s a n) = true) :
    kernelValue (kernel s a t) = .ok (BitVec.ofNat 64 (decimalValue (bytesAt s a n))) := by
  obtain ⟨v, t', e, -, -, -, hv⟩ := h s a t hr
  rw [e, ← hv hd]
  rfl

/-- Sixteen bytes as two halves of eight, "10^8 * decimalValue(b0..b7) + decimalValue(b8..b15)" (R121). -/
theorem decimalValue_bytesAt_16 {s : State} {a : Nat} (h : s.Readable a 16) : decimalValue (bytesAt s a 16) =
    10 ^ 8 * decimalValue (bytesAt s a 8) + decimalValue (bytesAt s (a + 8) 8) := by
  have hlow : s.Readable (a + 8) 8 := h.shift (by decide)
  rw [show 16 = 8 + 8 from rfl, bytesAt_add, decimalValue_append, bytesAt_length hlow, Nat.mul_comm]

/-- Settles O41: the lanes of the levels with the low nibbles replaced by digits, and the values of BT8, BT4 and BT16. -/
theorem bitTrickKernelIsRightOnDigits : Obligations.BitTrickKernelIsRightOnDigits := by
  refine ⟨fun w d (h : HoldsDigits w d 8) => ⟨fun j hj => ?_, fun k hk => ?_, h.swarL3_eq_sum⟩,
    fun w d (h : HoldsDigits w d 4) hhigh => ⟨fun j hj => ?_, h.swarL2_eq_sum hhigh⟩,
    fun s a t => ⟨bt8_ok.kernelValue_eq t, bt4_ok.kernelValue_eq t, fun hr hd =>
      ⟨bt16_ok.kernelValue_eq t hr hd, decimalValue_bytesAt_16 hr⟩⟩⟩
  · rw [swarL1_lane w hj, h.pairValue_eq (by omega)]
  · rw [swarL2_swarL1_lane w hk, h.quadValue_eq (by omega)]
  · rw [swarL1_lane w (by omega), h.pairValue_eq (by omega)]

end Sys2Proof.Machine
end

section
/-! The vector kernel on digits, stage by stage (41_vector_kernel.md R156). -/

namespace Sys2Proof.Machine

/-- Byte lane `i` of `v` is the digit `d i` in ASCII (R9), for each of the sixteen lanes. -/
def LanesHoldDigits (v : VecReg) (d : Nat → Nat) : Prop :=
  ∀ i, i < 16 → d i ≤ 9 ∧ lane 8 i v = 0x30 + d i

/-- The value of digits `4k` to `4k + 3`. -/
def digitQuad (d : Nat → Nat) (k : Nat) : Nat :=
  1000 * d (4 * k) + 100 * d (4 * k + 1) + 10 * d (4 * k + 2) + d (4 * k + 3)

/-- V.BIAS leaves the digit: 0xD0 is `-0x30` modulo 256. -/
theorem LanesHoldDigits.vBias_eq {v : VecReg} {d : Nat → Nat} (h : LanesHoldDigits v d) {i : Nat} (hi : i < 16) :
    lane 8 i (vBias v) = d i ∧ lane 8 i (vBias v) ≤ 9 := by
  obtain ⟨hle, hb⟩ := h i hi
  rw [vBias_lane v hi]
  omega

theorem LanesHoldDigits.vMadd1_eq {v : VecReg} {d : Nat → Nat} (h : LanesHoldDigits v d) {j : Nat} (hj : j < 8) :
    lane 16 j (vMadd1 (vBias v)) = 10 * d (2 * j) + d (2 * j + 1) ∧ lane 16 j (vMadd1 (vBias v)) ≤ 99 := by
  obtain ⟨e0, l0⟩ := h.vBias_eq (i := 2 * j) (by omega)
  obtain ⟨e1, l1⟩ := h.vBias_eq (i := 2 * j + 1) (by omega)
  have e : lane 16 j (vMadd1 (vBias v)) = _ := vMadd_lane (w := 8) (by decide) hj l0 l1 (by decide)
  omega

theorem LanesHoldDigits.vMadd2_eq {v : VecReg} {d : Nat → Nat} (h : LanesHoldDigits v d) {k : Nat} (hk : k < 4) :
    lane 32 k (vMadd2 (vMadd1 (vBias v))) = digitQuad d k ∧ lane 32 k (vMadd2 (vMadd1 (vBias v))) ≤ 9999 := by
  obtain ⟨e0, l0⟩ := h.vMadd1_eq (j := 2 * k) (by omega)
  obtain ⟨e1, l1⟩ := h.vMadd1_eq (j := 2 * k + 1) (by omega)
  have e : lane 32 k (vMadd2 (vMadd1 (vBias v))) = _ := vMadd_lane (w := 16) (by decide) hk l0 l1 (by decide)
  rw [show 2 * (2 * k) = 4 * k by omega] at e0
  rw [show 2 * (2 * k + 1) = 4 * k + 2 by omega, show 4 * k + 2 + 1 = 4 * k + 3 from rfl] at e1
  rw [digitQuad]
  omega

theorem LanesHoldDigits.vPack_eq {v : VecReg} {d : Nat → Nat} (h : LanesHoldDigits v d) {k : Nat} (hk : k < 4) :
    lane 16 k (vPack (vMadd2 (vMadd1 (vBias v)))) = digitQuad d k ∧
      lane 16 k (vPack (vMadd2 (vMadd1 (vBias v)))) ≤ 9999 := by
  obtain ⟨e, l⟩ := h.vMadd2_eq hk
  obtain ⟨low, -⟩ := vPack_lane hk l
  rw [low]
  exact ⟨e, l⟩

/-- V.MADD3 joins two neighbouring groups of four digits. -/
theorem LanesHoldDigits.vMadd3_eq {v : VecReg} {d : Nat → Nat} (h : LanesHoldDigits v d) {m : Nat} (hm : m < 2) :
    lane 32 m (vMadd3 (vPack (vMadd2 (vMadd1 (vBias v))))) =
      10000 * digitQuad d (2 * m) + 1 * digitQuad d (2 * m + 1) := by
  obtain ⟨e0, l0⟩ := h.vPack_eq (k := 2 * m) (by omega)
  obtain ⟨e1, l1⟩ := h.vPack_eq (k := 2 * m + 1) (by omega)
  rw [← e0, ← e1]
  exact vMadd_lane (w := 16) (by decide) (by omega) l0 l1 (by decide)

/-- Two neighbouring groups of four digits, 10^4 apart, are the positional sum of the eight. -/
theorem digitQuad_pair_eq_sum (d : Nat → Nat) (m : Nat) :
    10000 * digitQuad d (2 * m) + 1 * digitQuad d (2 * m + 1) = ∑ i : Fin 8, d (8 * m + i.val) * 10 ^ (7 - i.val) := by
  rw [Fin.sum_univ_eight, digitQuad, digitQuad, show 4 * (2 * m) = 8 * m by omega,
    show 4 * (2 * m + 1) = 8 * m + 4 by omega]
  change _ = d (8 * m) * 10 ^ 7 + d (8 * m + 1) * 10 ^ 6 + d (8 * m + 2) * 10 ^ 5 + d (8 * m + 3) * 10 ^ 4 +
    d (8 * m + 4) * 10 ^ 3 + d (8 * m + 5) * 10 ^ 2 + d (8 * m + 6) * 10 ^ 1 + d (8 * m + 7) * 10 ^ 0
  ring

theorem LanesHoldDigits.vMadd3_eq_sum {v : VecReg} {d : Nat → Nat} (h : LanesHoldDigits v d) {m : Nat} (hm : m < 2) :
    lane 32 m (vMadd3 (vPack (vMadd2 (vMadd1 (vBias v))))) = ∑ i : Fin 8, d (8 * m + i.val) * 10 ^ (7 - i.val) :=
  (h.vMadd3_eq hm).trans (digitQuad_pair_eq_sum d m)

/-- A register made of eight byte lanes and the same eight again repeats its lower half in its upper half. -/
theorem lane_ofLanes_append_self {xs : List Nat} (hl : xs.length = 8) {i : Nat} (hi : i < 8) :
    lane 8 (i + 8) (ofLanes 8 (xs ++ xs)) = lane 8 i (ofLanes 8 (xs ++ xs)) := by
  have hll : (xs ++ xs).length = 16 := by rw [List.length_append, hl]
  rw [lane_ofLanes (by omega) (by omega), lane_ofLanes (by omega) (by omega), List.getElem_append_right (by omega),
    List.getElem_append_left (by omega)]
  simp only [hl, Nat.add_sub_cancel]

/-- V.LOAD8DUP of a readable range puts its bytes in both halves of the register (R142). -/
theorem vLoad8Dup_ok {s : State} {a : Nat} (h : s.Readable a 8) :
    ∃ v, vLoad8Dup s a = .ok v ∧ ∀ i, i < 8 → lane 8 (i + 8) v = lane 8 i v := by
  have hl := bytesAt_length h
  rw [vLoad8Dup, memRead_ok h]
  refine ⟨_, rfl, fun i hi => ?_⟩
  rw [dup_eq_ofLanes hl]
  exact lane_ofLanes_append_self (by rw [List.length_map, hl]) hi

/-- Two kernels of one width hand over the same value for readable digits (R156). -/
theorem KernelOk.kernelValue_agree {n : Nat} {k k' : State → Nat → Transients → Except Nat (Word × Transients)}
    (h : KernelOk n k) (h' : KernelOk n k') {s : State} {a : Nat} (t u : Transients) (hr : s.Readable a n)
    (hd : allDigits (bytesAt s a n) = true) : kernelValue (k s a t) = kernelValue (k' s a u) :=
  (h.kernelValue_eq t hr hd).trans (h'.kernelValue_eq u hr hd).symm

/-- Settles O38: each stage's lanes from those of the stage before; VK16 and VK8 by `vk16_ok` and `vk8_ok`, which have the
same form as the laws of BT16 and BT8. -/
theorem vectorKernelIsRightOnDigits : Obligations.VectorKernelIsRightOnDigits := by
  refine ⟨fun v d (h : LanesHoldDigits v d) => ⟨fun j hj => (h.vMadd1_eq hj).1, fun k hk => (h.vMadd2_eq hk).1, ?_, ?_⟩,
    fun s a t u hr hd => ⟨vk16_ok.kernelValue_eq t hr hd, vk16_ok.kernelValue_agree bt16_ok t u hr hd⟩,
    fun s a t u hr hd =>
      ⟨vLoad8Dup_ok hr, vk8_ok.kernelValue_eq t hr hd, vk8_ok.kernelValue_agree bt8_ok t u hr hd⟩⟩
  · simpa using h.vMadd3_eq_sum (m := 0) (by decide)
  · exact h.vMadd3_eq_sum (m := 1) (by decide)

end Sys2Proof.Machine
end

section
/-! The length composer (42_composer.md): FOLD as numbers (R172), the ladder of R178 as the rows of R179, and PARSEN as one
function of its bytes (R182). -/

namespace Sys2Proof.Machine

/-- FOLD as numbers, for every constant of SCALE: both operations wrap at 64 bits. -/
theorem foldAcc_acc_toNat (k : Scale) (v : Word) (t : Transients) :
    (foldAcc k v t).acc.toNat = (t.acc.toNat * k.const.toNat + v.toNat) % 2 ^ 64 := by
  rw [foldAcc, scale, BitVec.toNat_add, BitVec.toNat_mul, Nat.mod_add_mod]

/-- Settles O36: `foldAcc_acc_toNat` at the three constants. -/
theorem foldIsModuloTwoToThe64 : Obligations.FoldIsModuloTwoToThe64 :=
  fun v t => ⟨foldAcc_acc_toNat .k1 v t, foldAcc_acc_toNat .k4 v t, foldAcc_acc_toNat .k8 v t⟩

/-- Settles O14: the load of the whole footprint and the staged command answer by the same two cases, all readable or a
lowest unreadable byte. -/
theorem stagedParsenIsOneShot : Obligations.StagedParsenIsOneShot := by
  intro s a len hpos hle
  have hlen : footprint (.parseN a len) = len.toNat := footprint_parseN a hle
  rw [← hlen] at hpos ⊢
  rcases readable_or_first s a.toNat (footprint (.parseN a len)) with hr | ⟨k, hk⟩
  · rw [readBytes_ok hr]
    exact exec_parse_ok hpos hr
  · rw [readBytes_error hk]
    exact exec_parse_fault hk

/-! ### The rows of R179 from the rule of R178 -/

/-- One T1 for each of `n` bytes from offset `c` on. -/
def tailChunks : Nat → Nat → List Chunk
  | _, 0 => []
  | c, n + 1 => .t1 c :: tailChunks (c + 1) n

/-- The chunks of S4 and T1 for `n` bytes from offset `c` on. -/
def chunksFrom4 (c n : Nat) : List Chunk :=
  if 4 ≤ n then .s4 c :: tailChunks (c + 4) (n - 4) else tailChunks c n

/-- The chunks of S8, S4 and T1 for `n` bytes from offset `c` on. -/
def chunksFrom8 (c n : Nat) : List Chunk :=
  if 8 ≤ n then .s8 c :: chunksFrom4 (c + 8) (n - 8) else chunksFrom4 c n

/-- The chunks of the whole ladder for `n` bytes. -/
def chunksFrom16 (n : Nat) : List Chunk :=
  if 16 ≤ n then .s16 0 :: chunksFrom8 16 (n - 16) else chunksFrom8 0 n

/-- "derived: from rule R178" (R179). -/
theorem decomposition_eq_chunksFrom16 {n : Nat} (hpos : 1 ≤ n) (hle : n ≤ 16) : decomposition n = chunksFrom16 n := by
  interval_cases n <;> rfl

/-! ### The stages as chunks -/

/-- A stage that runs: the kernel at the cursor, its value put into ACC by `put`, the cursor moved over `w` bytes. -/
def runChunk (kernel : State → Nat → Transients → Except Nat (Word × Transients)) (w : Nat) (put : Word → Word → Word)
    (s : State) (t : Transients) : Except Nat Transients :=
  (kernel s t.pos t).map fun p => advance w { p.2 with acc := put p.2.acc p.1 }

theorem stageS16_eq_runChunk {s : State} {t : Transients} (h : 16 ≤ t.rem.toNat) :
    stageS16 s t = runChunk kernel16 16 (fun _ v => v) s t := by
  rw [stageS16, if_pos h, runChunk]
  cases kernel16 s t.pos t <;> rfl

theorem stageS8_eq_runChunk {s : State} {t : Transients} (h : 8 ≤ t.rem.toNat) :
    stageS8 s t = runChunk kernel8 8 (· * 100000000#64 + ·) s t := by
  rw [stageS8, if_pos h, runChunk]
  cases kernel8 s t.pos t <;> rfl

theorem stageS4_eq_runChunk {s : State} {t : Transients} (h : 4 ≤ t.rem.toNat) :
    stageS4 s t = runChunk kernel4 4 (· * 10000#64 + ·) s t := by
  rw [stageS4, if_pos h, runChunk]
  cases kernel4 s t.pos t <;> rfl

section
variable {kernel : State → Nat → Transients → Except Nat (Word × Transients)} {w : Nat} {put : Word → Word → Word}
  {s : State} {t t' : Transients}

/-- The value a stage leaves in ACC, from its kernel's value and ACC before it. -/
theorem composerValue_runChunk (hk : KernelKeepsCursor kernel) :
    composerValue (runChunk kernel w put s t) = (kernelValue (kernel s t.pos t)).map (put t.acc) := by
  rw [runChunk]
  rcases hk s t.pos t with ⟨f, e⟩ | ⟨v, t', e, hacc, -, -⟩
  · rw [e]; rfl
  · rw [e, ← hacc]; rfl

/-- The cursor a stage leaves. -/
theorem runChunk_cursor (hk : KernelKeepsCursor kernel) (hw : w ≤ t.rem.toNat)
    (h : runChunk kernel w put s t = .ok t') : t'.pos = t.pos + w ∧ t'.rem.toNat = t.rem.toNat - w := by
  rw [runChunk] at h
  rcases hk s t.pos t with ⟨f, e⟩ | ⟨v, u, e, -, hpos, hrem⟩
  · rw [e] at h; cases h
  · rw [e] at h
    cases h
    rw [← hrem] at hw ⊢
    exact ⟨congrArg (· + w) hpos, advance_rem hw⟩

end

/-- One chunk and the chunks after it. -/
theorem composerValue_bind {s : State} {a : Nat} {u : Transients} {acc : Word} {r : Except Nat Transients} {c : Chunk}
    {cs : List Chunk} {next : Transients → Except Nat Transients} (hr : composerValue r = c.fold s a u acc)
    (hnext : ∀ t', r = .ok t' → composerValue (next t') = foldChunks s a u t'.acc cs) :
    composerValue (r.bind next) = foldChunks s a u acc (c :: cs) := by
  rw [foldChunks, ← hr]
  cases r with
  | error f => rfl
  | ok t' => exact hnext t' rfl

/-- A stage that runs folds its chunk, where the chunk's value is its kernel's; the stages after it start `w` bytes
further. -/
theorem composerValue_runChunk_bind {kernel : State → Nat → Transients → Except Nat (Word × Transients)}
    (hk : KernelKeepsCursor kernel) {w : Nat} {put : Word → Word → Word} {s : State} {a c : Nat} {t u : Transients}
    {chunk : Chunk} {cs : List Chunk} {next : Transients → Except Nat Transients} (hpos : t.pos = a + c)
    (hw : w ≤ t.rem.toNat) (hchunk : chunk.fold s a u t.acc = (kernelValue (kernel s (a + c) t)).map (put t.acc))
    (hnext : ∀ t', t'.pos = a + (c + w) → t'.rem.toNat = t.rem.toNat - w →
      composerValue (next t') = foldChunks s a u t'.acc cs) :
    composerValue ((runChunk kernel w put s t).bind next) = foldChunks s a u t.acc (chunk :: cs) := by
  refine composerValue_bind (by rw [composerValue_runChunk hk, hchunk, hpos]) fun t' h => ?_
  obtain ⟨hp, hr⟩ := runChunk_cursor hk hw h
  exact hnext t' (by rw [hp, hpos, Nat.add_assoc]) hr

theorem memRead_one_error {s : State} {a : Nat} (h : s.readByte a = none) : memRead s a 1 = .error a :=
  memRead_error (k := 0) ⟨Nat.one_pos, h, fun _ hk => absurd hk (Nat.not_lt_zero _)⟩

/-- T1 folds the remaining bytes one by one. -/
theorem composerValue_stageT1 (s : State) (a : Nat) (u : Transients) (n c : Nat) (t : Transients) (hpos : t.pos = a + c) :
    composerValue (stageT1 s n t) = foldChunks s a u t.acc (tailChunks c n) := by
  induction n generalizing c t with
  | zero => rfl
  | succ n ih =>
    rw [stageT1, tailChunks, foldChunks, Chunk.fold, hpos]
    cases hb : s.readByte (a + c) with
    | none => rw [memRead_one_error hb]; rfl
    | some b =>
      rw [memRead_one hb]
      simp only [BitVec.ofNat_toNat, BitVec.setWidth_eq]
      exact ih (c + 1) _ (congrArg (· + 1) hpos)

/-! ### The ladder of R178 -/

/-- The ladder from S4 on. -/
def ladder4 (s : State) (t : Transients) : Except Nat Transients :=
  (stageS4 s t).bind fun t' => stageT1 s t'.rem.toNat t'

/-- The ladder from S8 on. -/
def ladder8 (s : State) (t : Transients) : Except Nat Transients :=
  (stageS8 s t).bind (ladder4 s)

theorem compose_eq_ladder (s : State) (a : Nat) (len : BitVec 5) (t : Transients) :
    compose s a len t = (stageS16 s (stageInit a len t)).bind (ladder8 s) := by
  rw [compose]
  cases stageS16 s (stageInit a len t) with
  | error f => rfl
  | ok t1 =>
    simp only [Except.bind, ladder8]
    cases stageS8 s t1 with
    | error f => rfl
    | ok t2 =>
      simp only [ladder4]
      cases stageS4 s t2 <;> rfl

theorem composerValue_ladder4 (s : State) (a : Nat) (u : Transients) (c : Nat) (t : Transients) (hpos : t.pos = a + c) :
    composerValue (ladder4 s t) = foldChunks s a u t.acc (chunksFrom4 c t.rem.toNat) := by
  rw [ladder4, chunksFrom4]
  split
  next h4 =>
    rw [stageS4_eq_runChunk h4]
    refine composerValue_runChunk_bind kernel4_keepsCursor hpos h4 ?_ fun t' hp hr => ?_
    · rw [kernel4_value s (a + c) t u]; rfl
    · rw [← hr]; exact composerValue_stageT1 s a u _ _ t' hp
  next h4 =>
    rw [stageS4_skip (Nat.lt_of_not_le h4)]
    exact composerValue_stageT1 s a u _ c t hpos

theorem composerValue_ladder8 (s : State) (a : Nat) (u : Transients) (c : Nat) (t : Transients) (hpos : t.pos = a + c) :
    composerValue (ladder8 s t) = foldChunks s a u t.acc (chunksFrom8 c t.rem.toNat) := by
  rw [ladder8, chunksFrom8]
  split
  next h8 =>
    rw [stageS8_eq_runChunk h8]
    refine composerValue_runChunk_bind kernel8_keepsCursor hpos h8 ?_ fun t' hp hr => ?_
    · rw [kernel8_value s (a + c) t u]; rfl
    · rw [← hr]; exact composerValue_ladder4 s a u _ t' hp
  next h8 =>
    rw [stageS8_skip (Nat.lt_of_not_le h8)]
    exact composerValue_ladder4 s a u c t hpos

/-- The whole ladder folds the chunks of R178, for every length. -/
theorem composerValue_compose (s : State) (a : Nat) (len : BitVec 5) (t : Transients) :
    composerValue (compose s a len t) = foldChunks s a t 0#64 (chunksFrom16 len.toNat) := by
  rw [compose_eq_ladder, chunksFrom16]
  split
  next h16 =>
    rw [stageS16_eq_runChunk h16]
    refine composerValue_runChunk_bind (c := 0) (t := stageInit a len t) kernel16_keepsCursor rfl h16 ?_
      fun t' hp hr => ?_
    · rw [kernel16_value s (a + 0) _ t, Chunk.fold]
      cases kernelValue (kernel16 s (a + 0) t) <;> rfl
    · rw [show len.toNat - 16 = t'.rem.toNat from hr.symm]
      exact composerValue_ladder8 s a t 16 t' hp
  next h16 =>
    rw [stageS16_skip (Nat.lt_of_not_le h16)]
    exact composerValue_ladder8 s a t 0 (stageInit a len t) rfl

/-- Settles O40: every row of R179 is the list of chunks of the ladder. -/
theorem everyLengthDecomposesAsItsRow : Obligations.EveryLengthDecomposesAsItsRow := by
  intro s a len t hpos hle
  rw [composerValue_compose, decomposition_eq_chunksFrom16 hpos hle]

end Sys2Proof.Machine
end

section
/-! The commands (43_commands.md): SETTIER (R201), the four parse commands (R202 to R205), which words of theirs are illegal
(R85, R86), and what a response and the choice of a kernel depend on (R206, R207, R209). -/

namespace Sys2Proof.Machine

/-! ### Illegal words of a command -/

/-- A word with a reserved bit set raises IllegalCommand. -/
theorem raisesIllegal_of_zero {cw : CmdWord} (h : fieldZero cw ≠ 0#21) : RaisesIllegal cw :=
  raisesIllegal_of_illegalWord (.inl h)

/-- `len` must be zero outside PARSEN. -/
theorem raisesIllegal_of_len {cw : CmdWord} (ho : fieldOp cw ≠ 5#4) (h : fieldLen cw ≠ 0#5) : RaisesIllegal cw :=
  raisesIllegal_of_illegalWord (.inr (.inr (.inl ⟨ho, h⟩)))

/-- `tier` must be zero outside SETTIER. -/
theorem raisesIllegal_of_tier {cw : CmdWord} (ho : fieldOp cw ≠ 1#4) (h : fieldTier cw ≠ 0#2) : RaisesIllegal cw :=
  raisesIllegal_of_illegalWord (.inr (.inr (.inr (.inl ⟨ho, h⟩))))

/-- A PARSEN word with a length of 17 or more raises IllegalCommand. -/
theorem raisesIllegal_of_lenTooLong {cw : CmdWord} (ho : fieldOp cw = 5#4) (h : 17 ≤ (fieldLen cw).toNat) :
    RaisesIllegal cw :=
  raisesIllegal_of_illegalWord (.inr (.inr (.inr (.inr (.inl ⟨ho, (lenOk_eq_false_iff _).2 h⟩)))))

/-- A word of PARSE4, PARSE8 or PARSE16, which have neither a `len` nor a `tier`, with a must-be-zero bit set. -/
theorem raisesIllegal_of_fixed_width {cw : CmdWord} (ho : fieldOp cw = 2#4 ∨ fieldOp cw = 3#4 ∨ fieldOp cw = 4#4)
    (h : fieldLen cw ≠ 0#5 ∨ fieldTier cw ≠ 0#2 ∨ fieldZero cw ≠ 0#21) : RaisesIllegal cw := by
  have h1 : fieldOp cw ≠ 1#4 := by rcases ho with ho | ho | ho <;> simp [ho]
  have h5 : fieldOp cw ≠ 5#4 := by rcases ho with ho | ho | ho <;> simp [ho]
  rcases h with h | h | h
  · exact raisesIllegal_of_len h5 h
  · exact raisesIllegal_of_tier h1 h
  · exact raisesIllegal_of_zero h

/-! ### SETTIER -/

/-- Settles O8: the two ways SETTIER ends, and the words that do not decode to it. -/
theorem settierWritesTheTierOnce : Obligations.SettierWritesTheTierOnce := by
  refine ⟨fun s t hm hl => ?_, fun s b h => ?_, fun cw ho h => ?_⟩
  · exact ⟨_, exec_setTier_legal hm hl, rfl, rfl, rfl, rfl, rfl, rfl, rfl, (Ending.tierSet t hm hl).sameOutside⟩
  · exact ⟨_, exec_setTier_illegal h, faultTaken_raise .illegalCommand s, rfl⟩
  · rcases h with h | h
    · exact raisesIllegal_of_len (by simp [ho]) h
    · exact raisesIllegal_of_zero h

/-! ### The parse commands -/

/-- A parse command over a readable footprint of at least one byte completes, with everything that `ParseDone` says. -/
theorem exec_parse_completes {i : Instr} {s : State} (hf : 0 < footprint i)
    (hr : s.Readable (addressOf i) (footprint i)) :
    ∃ t, exec i s = .next t ∧
      s.ParseDone t (parseValue (parseOpOf i) s.tier (bytesAt s (addressOf i) (footprint i))) :=
  ⟨_, exec_parse_ok hf hr, parseDone_respond _ s⟩

/-- A parse command with an unreadable byte takes the fault for the lowest of them, with the tier locked. -/
theorem exec_parse_takes_fault {i : Instr} {s : State} {k : Nat} (h : s.FirstUnreadable (addressOf i) (footprint i) k) :
    ∃ t, exec i s = .next t ∧ s.FaultTaken t .bufferFault (wireAddr s.par (addressOf i + k)) ∧ t.tierLock = true :=
  ⟨_, exec_parse_fault h, faultTaken_raise_lockTier _ s, rfl⟩

/-- Settles O9: the law of a parse command at the footprint of PARSE4. -/
theorem parse4RespondsWithFourDigits : Obligations.Parse4RespondsWithFourDigits :=
  ⟨fun _ a => exec_parse_completes (i := .parse4 a) (by simp [footprint]),
    fun _ a _ => exec_parse_takes_fault (i := .parse4 a),
    fun _ ho => raisesIllegal_of_fixed_width (.inl ho)⟩

/-- Settles O10: the law of a parse command at the footprint of PARSE8. -/
theorem parse8RespondsWithEightDigits : Obligations.Parse8RespondsWithEightDigits :=
  ⟨fun _ a => exec_parse_completes (i := .parse8 a) (by simp [footprint]),
    fun _ a _ => exec_parse_takes_fault (i := .parse8 a),
    fun _ ho => raisesIllegal_of_fixed_width (.inr (.inl ho))⟩

/-- Settles O11: the law of a parse command at the footprint of PARSE16. -/
theorem parse16RespondsWithSixteenDigits : Obligations.Parse16RespondsWithSixteenDigits :=
  ⟨fun _ a => exec_parse_completes (i := .parse16 a) (by simp [footprint]),
    fun _ a _ => exec_parse_takes_fault (i := .parse16 a),
    fun _ ho => raisesIllegal_of_fixed_width (.inr (.inr ho))⟩

/-- Settles O12: length 0 by its own branch, the legal lengths by the law of a parse command, the others at decode. -/
theorem parsenRespondsWithItsDigits : Obligations.ParsenRespondsWithItsDigits := by
  refine ⟨fun s a => ⟨_, exec_parseN_zero a s, parseDone_respond _ s⟩, fun s a len hpos hle hr => ?_,
    fun s a len k hle h => ?_, fun cw ho h => ?_⟩
  · rw [← footprint_parseN a hle] at hpos hr ⊢
    exact exec_parse_completes hpos hr
  · rw [← footprint_parseN a hle] at h
    exact exec_parse_takes_fault h
  · rcases h with h | h | h
    · exact raisesIllegal_of_lenTooLong ho h
    · exact raisesIllegal_of_tier (by simp [ho]) h
    · exact raisesIllegal_of_zero h

/-! ### What a result depends on -/

@[simp] theorem withTier_par (s : State) (tier : Tier) : (s.withTier tier).par = s.par := rfl

/-- The tier does not change what can be read. -/
theorem withTier_readable {s : State} {tier : Tier} {a n : Nat} : (s.withTier tier).Readable a n ↔ s.Readable a n := Iff.rfl

theorem withTier_firstUnreadable {s : State} {tier : Tier} {a n k : Nat} :
    (s.withTier tier).FirstUnreadable a n k ↔ s.FirstUnreadable a n k := Iff.rfl

@[simp] theorem withTier_bytesAt (s : State) (tier : Tier) (a n : Nat) :
    bytesAt (s.withTier tier) a n = bytesAt s a n := rfl

theorem parseValue_of_digits {op : ParseOp} {tier : Tier} {bs : List Byte} (h : allDigits bs = true) :
    parseValue op tier bs = BitVec.ofNat 64 (decimalValue bs) := by
  rw [parseValue, if_pos h]

/-- A parse command over readable digits responds with their value, in which the tier does not occur (R207). -/
theorem exec_parse_digits {i : Instr} {s : State} (hf : 0 < footprint i)
    (hr : s.Readable (addressOf i) (footprint i)) (hd : allDigits (bytesAt s (addressOf i) (footprint i)) = true) :
    ∃ t, exec i s = .next t ∧
      s.ParseDone t (BitVec.ofNat 64 (decimalValue (bytesAt s (addressOf i) (footprint i)))) :=
  ⟨_, exec_parse_ok hf hr, parseValue_of_digits hd ▸ parseDone_respond _ s⟩

/-- Settles O16: on digits by `exec_parse_digits` on both tiers; the fault by whether the footprint, which is the same on both,
can be read. -/
theorem tierDoesNotChangeAValidResult : Obligations.TierDoesNotChangeAValidResult := by
  intro i s tier _ hf
  refine ⟨fun hr hd => ?_, ?_⟩
  · obtain ⟨t, et, ht⟩ := exec_parse_digits hf hr hd
    obtain ⟨u, eu, hu⟩ := exec_parse_digits (s := s.withTier tier) hf (withTier_readable.2 hr) (by rwa [withTier_bytesAt])
    exact ⟨t, u, et, eu, ht, hu⟩
  · rcases readable_or_first s (addressOf i) (footprint i) with hr | ⟨k, hk⟩
    · exact ⟨_, _, exec_parse_ok hf hr, exec_parse_ok hf (withTier_readable.2 hr), by simp⟩
    · exact ⟨_, _, exec_parse_fault hk, exec_parse_fault (withTier_firstUnreadable.2 hk), by simp⟩

/-- The name that `UNSPEC` has for the parse command with this `op` (R82). -/
def parseOpOfCode (op : BitVec 4) : ParseOp :=
  if op = 2#4 then .parse4 else if op = 3#4 then .parse8 else if op = 4#4 then .parse16 else .parseN

theorem parseOpOf_eq (i : Instr) : parseOpOf i = parseOpOfCode i.op := by
  cases i <;> rfl

/-- The `op` decides whether a command is a parse command. -/
theorem isParse_eq (i : Instr) : i.isParse = (i.op != 1#4) := by
  cases i <;> rfl

/-- The data of a parse command's response as the function of `op`, TIER and the consumed bytes that R209 speaks of; their number
is the length. -/
def responseValue (op : BitVec 4) (tier : Tier) (bs : List Byte) : Word :=
  if bs.length = 0 then Config.UNSPEC (parseOpOfCode op) tier bs else parseValue (parseOpOfCode op) tier bs

/-- A legal parse command over a readable footprint, which may be empty, responds with `responseValue` of it. -/
theorem exec_parse_eq_responseValue {i : Instr} {s : State} (hw : i.wf = true) (hp : i.isParse = true)
    (hr : s.Readable (addressOf i) (footprint i)) :
    exec i s = .next (respond (responseValue i.op s.tier (bytesAt s (addressOf i) (footprint i))) (lockTier s)) := by
  rcases (footprint i).eq_zero_or_pos with hf | hf
  · obtain ⟨a, rfl⟩ := parse_zero hw hp hf
    exact exec_parseN_zero a s
  · rw [responseValue, bytesAt_length hr, if_neg hf.ne', ← parseOpOf_eq]
    exact exec_parse_ok hf hr

/-- Settles O17: both commands respond with the same `responseValue`. -/
theorem responseIsAFunctionOfTheBytes : Obligations.ResponseIsAFunctionOfTheBytes := by
  intro i j s u hwi hwj hpi hop _ htier hri hrj hbytes
  have hpj : j.isParse = true := by rw [isParse_eq, ← hop, ← isParse_eq, hpi]
  have e : responseValue i.op s.tier (bytesAt s (addressOf i) (footprint i)) =
      responseValue j.op u.tier (bytesAt u (addressOf j) (footprint j)) := by rw [hop, htier, hbytes]
  exact ⟨_, _, exec_parse_eq_responseValue hwi hpi hri, exec_parse_eq_responseValue hwj hpj hrj, e, by simp [e]⟩

/-! ### The dispatch -/

/-- The three entries on tier 0 (R206). -/
theorem kernels_of_bittrick {s : State} (h : s.tier = .bittrick) (a : Nat) (t : Transients) :
    kernel16 s a t = bt16 s a t ∧ kernel8 s a t = bt8 s a t ∧ kernel4 s a t = bt4 s a t := by
  refine ⟨?_, ?_, rfl⟩
  · rw [kernel16, h]
  · rw [kernel8, h]

/-- The three entries on a vector tier (R206). -/
theorem kernels_of_vector {s : State} (h : s.tier = .vecBase ∨ s.tier = .vecExt) (a : Nat) (t : Transients) :
    kernel16 s a t = vk16 s a t ∧ kernel8 s a t = vk8 s a t ∧ kernel4 s a t = bt4 s a t := by
  refine ⟨?_, ?_, rfl⟩
  · rcases h with h | h <;> rw [kernel16, h]
  · rcases h with h | h <;> rw [kernel8, h]

/-- The value of S16 is its kernel's (R174). -/
theorem composerValue_stageS16 {s : State} {t : Transients} (h : 16 ≤ t.rem.toNat) :
    composerValue (stageS16 s t) = kernelValue (kernel16 s t.pos t) := by
  rw [stageS16_eq_runChunk h, composerValue_runChunk kernel16_keepsCursor]
  cases kernelValue (kernel16 s t.pos t) <;> rfl

/-- S8 folds the value of its kernel (R175). -/
theorem composerValue_stageS8 {s : State} {t : Transients} (h : 8 ≤ t.rem.toNat) :
    composerValue (stageS8 s t) = (kernelValue (kernel8 s t.pos t)).map (t.acc * 100000000#64 + ·) := by
  rw [stageS8_eq_runChunk h, composerValue_runChunk kernel8_keepsCursor]

/-- S4 folds the value of its kernel (R176). -/
theorem composerValue_stageS4 {s : State} {t : Transients} (h : 4 ≤ t.rem.toNat) :
    composerValue (stageS4 s t) = (kernelValue (kernel4 s t.pos t)).map (t.acc * 10000#64 + ·) := by
  rw [stageS4_eq_runChunk h, composerValue_runChunk kernel4_keepsCursor]

/-- T1 reads single bytes and calls no kernel. -/
@[simp] theorem stageT1_withTier (s : State) (tier : Tier) (n : Nat) (t : Transients) :
    stageT1 (s.withTier tier) n t = stageT1 s n t := by
  induction n generalizing t with
  | zero => rfl
  | succ n ih => simp only [stageT1, memRead_withTier, ih]

/-- The parse-4 entry is BT4 on every tier. -/
@[simp] theorem kernel4_withTier (s : State) (tier : Tier) (a : Nat) (t : Transients) :
    kernel4 (s.withTier tier) a t = kernel4 s a t := by
  simp only [kernel4, bt4, loadPacked, memRead_withTier]

@[simp] theorem stageS4_withTier (s : State) (tier : Tier) (t : Transients) :
    stageS4 (s.withTier tier) t = stageS4 s t := by
  simp only [stageS4, kernel4_withTier]

/-- Fewer than 8 bytes need neither S16 nor S8, the two stages whose kernel TIER selects. -/
theorem compose_of_lt_8 (s : State) (a : Nat) {len : BitVec 5} (t : Transients) (h : len.toNat < 8) :
    compose s a len t = ladder4 s (stageInit a len t) := by
  have h8 : (stageInit a len t).rem.toNat < 8 := h
  calc compose s a len t
      = (Except.ok (stageInit a len t)).bind (ladder8 s) := by rw [compose_eq_ladder, stageS16_skip (by omega)]
    _ = (stageS8 s (stageInit a len t)).bind (ladder4 s) := rfl
    _ = ladder4 s (stageInit a len t) := by rw [stageS8_skip h8]; rfl

/-- A run of fewer than 8 bytes is the same on every tier. -/
theorem compose_withTier_of_lt_8 (s : State) (tier : Tier) (a : Nat) {len : BitVec 5} (t : Transients)
    (h : len.toNat < 8) : compose (s.withTier tier) a len t = compose s a len t := by
  rw [compose_of_lt_8 _ a t h, compose_of_lt_8 _ a t h]
  simp only [ladder4, stageS4_withTier, stageT1_withTier]

/-- No parse command writes TIER, whether it responds, faults or is illegal. -/
theorem exec_parse_keeps_tier {i : Instr} (s : State) (hp : i.isParse = true) :
    ∃ u, exec i s = .next u ∧ u.tier = s.tier := by
  rcases (footprint i).eq_zero_or_pos with hf | hf
  · rcases exec_no_footprint s hf with e | ⟨t, -, -, rfl, -⟩ | ⟨a, -, e⟩
    · exact ⟨_, e, rfl⟩
    · cases hp
    · exact ⟨_, e, rfl⟩
  · rcases readable_or_first s (addressOf i) (footprint i) with hr | ⟨k, hk⟩
    · exact ⟨_, exec_parse_ok hf hr, rfl⟩
    · exact ⟨_, exec_parse_fault hk, rfl⟩

/-- Settles O39: the entries by the tier, the stages by their kernels' values, and T1 and the short runs because nothing in them
depends on TIER. -/
theorem dispatchSelectsTheKernelByTier : Obligations.DispatchSelectsTheKernelByTier :=
  ⟨fun _ a t => ⟨fun h => kernels_of_bittrick h a t, fun h => kernels_of_vector (.inl h) a t,
      fun h => kernels_of_vector (.inr h) a t⟩,
    fun _ _ => ⟨rfl, rfl, rfl⟩,
    fun _ _ => ⟨composerValue_stageS16, composerValue_stageS8, composerValue_stageS4⟩,
    stageT1_withTier,
    fun s tier a _ t h => compose_withTier_of_lt_8 s tier a t h,
    fun _ s hp => exec_parse_keeps_tier s hp⟩

end Sys2Proof.Machine
end

section
/-! Reset (70_reset_and_hazards.md R260): what `rst` leaves, and that nothing else ends a fault or unlocks the tier. -/

namespace Sys2Proof.Machine

/-- `rst` is taken in every phase. -/
theorem step_reset {s : State} {rest : List HostAction} (h : s.host = .reset :: rest) : step s = .next (resetBlock s) := by
  rw [step, h]

/-- A step of a faulted block other than reset can only be one of the host's acts on the buffer, which keep the fault and its
record (R236, R237). -/
theorem Stepped.keeps_fault {s t : State} (h : Stepped s t) (hf : s.phase = .fault)
    (hr : ∀ rest, s.host ≠ .reset :: rest) : t.phase = .fault ∧ t.fcode = s.fcode ∧ t.faddr = s.faddr := by
  cases h with
  | reset rest action => exact absurd action (hr rest)
  | idle _ phase => simp [hf] at phase
  | command _ _ _ _ phase => simp [hf] at phase
  | store => exact ⟨hf, rfl, rfl⟩
  | unmap => exact ⟨hf, rfl, rfl⟩

/-- Settles O23: the reset values by the fields of `resetBlock`; a step that is not a reset keeps a fault and a locked tier. -/
theorem rstResetsFromAnyState : Obligations.RstResetsFromAnyState := by
  refine ⟨fun s rest hh => ⟨resetBlock s, step_reset hh, rfl, rfl, rfl, rfl, rfl, rfl, rfl, resetBlock_readByte s, rfl, ?_⟩,
    fun s t h hf ht => ?_, fun s t h hl ht => ?_⟩
  · rw [resetBlock_host, hh, List.tail_cons]
  · by_contra! hr
    exact ht ((step_cases h).keeps_fault hf hr).1
  · by_contra! hr
    simp [((step_cases h).keeps_locked_tier hl hr).1] at ht

end Sys2Proof.Machine
end

section
/-! Decode and encode agree (30_encoding.md R81, R89): the shapes of a legal word are the words of well-formed commands. -/

namespace Sys2Proof

/-- A word of one of the five shapes decodes to the command of its shape: no check of R92 is met. -/
theorem Decoded.decode_eq {cw : CmdWord} {a : Addr} {i : Instr} (h : Decoded cw a i) : decode cw a = .ok i := by
  cases h with
  | setTier op zero len ok => simp [decode, op, zero, len, ok]
  | parse4 op zero len tier => simp [decode, op, zero, len, tier]
  | parse8 op zero len tier => simp [decode, op, zero, len, tier]
  | parse16 op zero len tier => simp [decode, op, zero, len, tier]
  | parseN op zero tier ok => simp [decode, op, zero, tier, ok]

/-- The word of a well-formed command has the shape of its command. -/
theorem decoded_encode {i : Instr} (hw : i.wf = true) : Decoded (encode i).1 (encode i).2 i := by
  cases i with
  | setTier t =>
    have h := Decoded.setTier (cw := commandWord 0#21 t 0#5 1#4) (a := 0#64) (by simp) (by simp) (by simp)
    rw [fieldTier_commandWord] at h
    exact h hw
  | parse4 a => refine .parse4 ?_ ?_ ?_ ?_ <;> simp [encode]
  | parse8 a => refine .parse8 ?_ ?_ ?_ ?_ <;> simp [encode]
  | parse16 a => refine .parse16 ?_ ?_ ?_ ?_ <;> simp [encode]
  | parseN a l =>
    have h := Decoded.parseN (cw := commandWord 0#21 0#2 l 5#4) (a := a) (by simp) (by simp) (by simp)
    rw [fieldLen_commandWord] at h
    exact h hw

/-- Settles O1: the word of a well-formed command has its shape, and a word of that shape decodes to it. -/
theorem decodeOfEncodeIsTheCommand : Obligations.DecodeOfEncodeIsTheCommand :=
  fun _ hw => (decoded_encode hw).decode_eq

/-- A word of one of the five shapes is the encoding of its command: the fields that the shape fixes are those `encode` puts. -/
theorem Decoded.encode_word {cw : CmdWord} {a : Addr} {i : Instr} (h : Decoded cw a i) : (encode i).1 = cw := by
  have hcw := commandWord_of_fields cw
  cases h with
  | setTier op zero len => rwa [op, zero, len] at hcw
  | parse4 op zero len tier => rwa [op, zero, len, tier] at hcw
  | parse8 op zero len tier => rwa [op, zero, len, tier] at hcw
  | parse16 op zero len tier => rwa [op, zero, len, tier] at hcw
  | parseN op zero tier => rwa [op, zero, tier] at hcw

/-- A parse command has the address operand with which its word was presented. -/
theorem Decoded.encode_addr {cw : CmdWord} {a : Addr} {i : Instr} (h : Decoded cw a i) (hp : i.isParse = true) :
    (encode i).2 = a := by
  cases h with
  | setTier => cases hp
  | parse4 | parse8 | parse16 | parseN => rfl

/-- Settles O2, by the shape of a word that decodes. -/
theorem decodedWordIsItsEncoding : Obligations.DecodedWordIsItsEncoding := by
  intro cw a i h
  have hd := decode_cases h
  exact ⟨hd.wf, hd.encode_word, hd.encode_addr⟩

end Sys2Proof
end

section
/-! The invariant of the registers (00_scope.md R7; 10_state.md R21 to R25): it holds at reset and every step keeps it. -/

namespace Sys2Proof.Machine

/-- What holds of a state inside a command (PHASE = BUSY), which the invariant leaves out: the invariant's conditions on the
parameters, the memory and the tier, and no fault on record. -/
structure State.Executing (s : State) : Prop where
  par : s.par.wf
  mem : Memory.wf s.mem = true
  implemented : s.tier.rank ≤ s.par.tierMax.rank
  unlocked : s.tierLock = false → s.tier = .bittrick
  fcode : s.fcode = .none
  faddr : s.faddr = 0#64

/-- The state in which a command is accepted: an idle block has no fault on record. -/
theorem State.Inv.executing_accept {s : State} (h : s.Inv) (hp : s.phase = .idle) : (accept s).Executing := by
  obtain ⟨hpar, hmem, himpl, hunlocked, -, hfault, haddr, -, -⟩ := h
  have hfcode : s.fcode = .none := by
    by_contra hne
    have hphase := hfault.2 hne
    rw [hp] at hphase
    cases hphase
  exact ⟨hpar, hmem, himpl, hunlocked, hfcode, haddr (by simp [hfcode])⟩

theorem State.Executing.lockTier {s : State} (h : s.Executing) : (lockTier s).Executing :=
  { h with unlocked := fun hl => by simp at hl }

theorem State.Executing.writeTier {s : State} {t : Tier} (h : s.Executing) (ht : t.rank ≤ s.par.tierMax.rank) :
    (writeTier t s).Executing :=
  { h with implemented := ht, unlocked := fun hl => by simp at hl }

/-- Without a fault on record an idle block meets the invariant. -/
theorem State.Executing.inv_of_idle {s : State} (h : s.Executing) (hp : s.phase = .idle) : s.Inv := by
  obtain ⟨hpar, hmem, himpl, hunlocked, hfcode, haddr⟩ := h
  exact ⟨hpar, hmem, himpl, hunlocked, by simp [hp], by simp [hp, hfcode], fun _ => haddr, by simp [haddr],
    by simp [hfcode]⟩

theorem State.Executing.inv_respond {s : State} (v : Word) (h : s.Executing) : (respond v s).Inv :=
  State.Executing.inv_of_idle { h with } rfl

theorem State.Executing.inv_respondNoData {s : State} (h : s.Executing) : (respondNoData s).Inv :=
  State.Executing.inv_of_idle { h with } rfl

/-- What FADDR records fits the address wires. -/
theorem Cause.address_lt (c : Cause) {p : Params} (h : p.wf) : (c.address p).toNat < 2 ^ p.aw := by
  cases c with
  | bufferFault a => exact wireAddr_lt p h.2 a
  | illegalCommand => exact Nat.two_pow_pos _

/-- A command that takes a fault leaves the invariant, where a BufferFault comes after the tier was locked. -/
theorem State.Executing.inv_raise {s : State} {c : Cause} (h : s.Executing)
    (hlock : c.code = .bufferFault → s.tierLock = true) : (raise c s).Inv := by
  refine ⟨h.par, h.mem, h.implemented, h.unlocked, by simp, ?_, fun hc => ?_, c.address_lt h.par, hlock⟩
  · cases c <;> simp [Cause.code]
  · cases c with
    | bufferFault a => exact absurd rfl hc
    | illegalCommand => rfl

/-- A command started in a state that meets the invariant leaves one, whichever way it ends. -/
theorem Ending.inv {s t : State} (h : Ending s t) (hs : s.Executing) : t.Inv := by
  cases h with
  | illegal => exact hs.inv_raise (by simp [Cause.code])
  | buffer f => exact hs.lockTier.inv_raise fun _ => rfl
  | parsed v => exact hs.lockTier.inv_respond v
  | tierSet t implemented => exact (hs.writeTier implemented).inv_respondNoData

/-- The invariant over the cases of a step. -/
theorem Stepped.inv {s t : State} (h : Stepped s t) (hs : s.Inv) : t.Inv := by
  cases h with
  | reset =>
    obtain ⟨hpar, hmem, -⟩ := hs
    exact State.Executing.inv_of_idle ⟨hpar, hmem, Nat.zero_le _, fun _ => rfl, rfl, rfl⟩ rfl
  | idle => exact hs
  | command _ _ _ _ phase _ ending => exact ending.inv (hs.executing_accept phase)
  | store a b =>
    obtain ⟨hpar, hmem, hregs⟩ := hs
    exact ⟨hpar, Memory.write_wf a b hmem, hregs⟩
  | unmap a =>
    obtain ⟨hpar, hmem, hregs⟩ := hs
    exact ⟨hpar, Memory.remove_wf a hmem, hregs⟩

/-- Settles O26, by the cases of a step and the ways a command ends. -/
theorem everyStepKeepsTheInvariant : Obligations.EveryStepKeepsTheInvariant :=
  fun _ _ hs h => (step_cases h).inv hs

/-- Settles O25: nothing is locked, faulted or readable at reset, so each condition holds of the values themselves. -/
theorem resetMeetsTheInvariant : Obligations.ResetMeetsTheInvariant :=
  State.Executing.inv_of_idle ⟨by decide, rfl, by decide, fun _ => rfl, rfl, rfl⟩ rfl

end Sys2Proof.Machine
end

section
/-! One step of the block (30_encoding.md section 6; 60_exceptions.md section 4): the command an idle block accepts, its one
response, the faulted block, the idle block, and the host's acts on the buffer (20_memory.md section 1). -/

namespace Sys2Proof.Machine

/-! ### Acceptance -/

/-- The state without the host's next action. -/
theorem takeAction_eq {s : State} {act : HostAction} {rest : List HostAction} (h : s.host = act :: rest) :
    takeAction s = { s with host := rest } := by
  rw [takeAction, h, List.tail_cons]

/-- The state in which a command runs: its action taken, the block busy. -/
theorem accept_eq {s : State} {act : HostAction} {rest : List HostAction} (h : s.host = act :: rest) :
    accept s = { s with host := rest, phase := .busy } := by
  rw [accept, takeAction_eq h]

/-- Settles O5: on an idle block the step is `runCommand`, which is `exec` of what the word decodes to. -/
theorem stepRunsTheDecodedCommand : Obligations.StepRunsTheDecodedCommand := by
  intro s cw a rest i hp hh hd
  have hrun : runCommand cw a s = exec i (accept s) := by
    rw [runCommand, show decode (portCommand s cw a).1 (portCommand s cw a).2 = .ok i from hd]
  rw [← accept_eq hh, ← hrun, step, hh, hp]

/-- The ways a presented command ends, told apart by `op`: any command may take a fault, and otherwise SETTIER responds
without data and a parse command with its value. -/
theorem step_present_ends {s : State} {cw : CmdWord} {a : Addr} {rest : List HostAction} (hp : s.phase = .idle)
    (hh : s.host = .present cw a :: rest) :
    (∃ c u, step s = .next (raise c u) ∧ u.host = rest ∧ u.responses = s.responses) ∨
      (fieldOp cw = 1#4 ∧ ∃ t, step s = .next (respondNoData (writeTier t (accept s)))) ∨
      (fieldOp cw ≠ 1#4 ∧ ∃ v, step s = .next (respond v (lockTier (accept s)))) := by
  have hrest : (accept s).host = rest := by rw [accept_eq hh]
  by_cases hw : IllegalWord cw
  · exact .inl ⟨_, _, step_present_illegal hp hh hw, hrest, rfl⟩
  obtain ⟨i, hd, e⟩ := step_present_legal hp hh hw
  rw [e]
  by_cases ho : fieldOp cw = 1#4
  · rw [hd.eq_setTier ho]
    rcases exec_no_footprint (i := .setTier (fieldTier cw)) (accept s) rfl with e | ⟨t, -, -, -, e⟩ | ⟨_, h, -⟩
    · exact .inl ⟨_, _, e, hrest, rfl⟩
    · exact .inr (.inl ⟨ho, t, e⟩)
    · cases h
  · have hparse : i.isParse = true := by
      cases hd with
      | setTier op => exact absurd op ho
      | parse4 | parse8 | parse16 | parseN => rfl
    rcases exec_parse_ends (accept s) hparse hd.wf with ⟨v, e⟩ | ⟨f, e⟩
    · exact .inr (.inr ⟨ho, v, e⟩)
    · exact .inl ⟨_, _, e, hrest, rfl⟩

theorem Cause.code_ne_none (c : Cause) : c.code ≠ .none := by
  cases c <;> simp [Cause.code]

/-- Settles O7: each way a command ends puts one response in front of those before it. -/
theorem oneResponsePerAcceptedCommand : Obligations.OneResponsePerAcceptedCommand := by
  intro s cw a rest hp hh
  have hrest : (accept s).host = rest := by rw [accept_eq hh]
  rcases step_present_ends hp hh with ⟨c, u, e, hu, hr⟩ | ⟨ho, t, e⟩ | ⟨ho, v, e⟩
  · exact ⟨_, _, e, hu, by rw [raise_responses, hr], .inr ⟨rfl, rfl, rfl, c.code_ne_none⟩⟩
  · exact ⟨_, _, e, hrest, rfl, .inl ⟨rfl, rfl, rfl, .inl ⟨ho, rfl, rfl⟩⟩⟩
  · exact ⟨_, _, e, hrest, rfl, .inl ⟨rfl, rfl, rfl, .inr ⟨ho, rfl⟩⟩⟩

/-! ### The faulted and the idle block -/

/-- A faulted block accepts no command (R236). -/
theorem step_fault_present {s : State} {cw : CmdWord} {a : Addr} {rest : List HostAction} (hf : s.phase = .fault)
    (hh : s.host = .present cw a :: rest) : step s = .fault .stuckInFault := by
  rw [step, hh, hf]

/-- A faulted block to which the host does nothing has no step (R236). -/
theorem step_fault_nil {s : State} (hf : s.phase = .fault) (hh : s.host = []) : step s = .fault .stuckInFault := by
  rw [step, hh, hf]

/-- Settles O21: commands are stuck, `rst` is taken in every phase, and the other steps keep the fault. -/
theorem onlyResetLeavesTheFaultState : Obligations.OnlyResetLeavesTheFaultState :=
  fun _ hf => ⟨step_fault_nil hf, fun _ _ _ hh => step_fault_present hf hh,
    fun _ h hr => (step_cases h).keeps_fault hf hr, fun _ hh => ⟨_, step_reset hh, rfl, rfl⟩⟩

/-- Settles O43: the row of `step` for an idle block and an empty list of the host's. -/
theorem idleBlockStaysAsItIs : Obligations.IdleBlockStaysAsItIs := by
  intro s hp hh
  rw [step, hh, hp]

/-! ### The host's acts on the buffer -/

/-- Between commands the host's write is taken, whether the block is idle or faulted. -/
theorem step_store {s : State} {a : Nat} {b : Byte} {rest : List HostAction} (hp : s.phase ≠ .busy)
    (hh : s.host = .store a b :: rest) : step s = .next (hostStore a b s) := by
  rw [step, hh]
  cases h : s.phase with
  | idle | fault => rfl
  | busy => exact absurd h hp

/-- Between commands a byte is taken out of the window, whether the block is idle or faulted. -/
theorem step_unmap {s : State} {a : Nat} {rest : List HostAction} (hp : s.phase ≠ .busy)
    (hh : s.host = .unmap a :: rest) : step s = .next (hostUnmap a s) := by
  rw [step, hh]
  cases h : s.phase with
  | idle | fault => rfl
  | busy => exact absurd h hp

theorem hostStore_readByte_same {s : State} {a : Nat} (b : Byte) (h : a < 2 ^ s.par.aw) :
    (hostStore a b s).readByte a = some b := by
  rw [State.readByte, hostStore_par, if_pos h, hostStore_mem, Memory.read_write_same]

theorem hostStore_readByte_of_ne {s : State} {a x : Nat} (b : Byte) (h : x ≠ a) :
    (hostStore a b s).readByte x = s.readByte x := by
  rw [State.readByte, hostStore_par, hostStore_mem, Memory.read_write_of_ne _ _ h, State.readByte]

theorem hostUnmap_readByte_same {s : State} {a : Nat} (h : Memory.wf s.mem = true) :
    (hostUnmap a s).readByte a = none :=
  (readByte_eq_none_iff _ a).2 (.inr (Memory.read_remove_same h))

theorem hostUnmap_readByte_of_ne {s : State} {a x : Nat} (h : x ≠ a) :
    (hostUnmap a s).readByte x = s.readByte x := by
  rw [State.readByte, hostUnmap_par, hostUnmap_mem, Memory.read_remove_of_ne _ h, State.readByte]

/-- Settles O29: the two acts' steps, and what can be read after them. -/
theorem hostActsOnOneByte : Obligations.HostActsOnOneByte := by
  refine ⟨fun s a b rest hp hh => ⟨_, step_store hp hh, hostStore_readByte_same b,
      fun _ => hostStore_readByte_of_ne b, ?_⟩,
    fun s a rest hm hp hh => ⟨_, step_unmap hp hh, hostUnmap_readByte_same hm, fun _ => hostUnmap_readByte_of_ne, ?_⟩⟩
  · rw [hostStore, takeAction_eq hh]
  · rw [hostUnmap, takeAction_eq hh]

end Sys2Proof.Machine
end

section
/-! The control and status registers (10_state.md R34): TIERCTL and STATUS field by field. -/

namespace Sys2Proof.Machine

/-- TIERCTL bits 1:0. -/
theorem tierctl_tier (s : State) : s.tierctl.extractLsb' 0 2 = s.tier.toBits := BitVec.extractLsb'_append_eq_right

/-- TIERCTL bit 2. -/
theorem tierctl_tierLock (s : State) : s.tierctl.extractLsb' 2 1 = BitVec.ofBool s.tierLock :=
  BitVec.extractLsb'_append_eq_left

/-- STATUS bits 1:0. -/
theorem status_phase (s : State) : s.status.extractLsb' 0 2 = s.phase.toBits := BitVec.extractLsb'_append_eq_right

/-- STATUS bits 3:2, which no register holds. -/
theorem status_reserved (s : State) : s.status.extractLsb' 2 2 = 0#2 :=
  (BitVec.extractLsb'_append_eq_of_le (by decide)).trans BitVec.extractLsb'_append_eq_right

/-- STATUS bits 7:4. -/
theorem status_fcode (s : State) : s.status.extractLsb' 4 4 = s.fcode.toBits :=
  (BitVec.extractLsb'_append_eq_of_le (by decide)).trans BitVec.extractLsb'_append_eq_left

/-- Settles O42: each field of TIERCTL and STATUS is the encoding of its register. -/
theorem statusRegistersShowTheState : Obligations.StatusRegistersShowTheState := by
  intro s
  rw [tierctl_tier, tierctl_tierLock, status_phase, status_reserved, status_fcode]
  refine ⟨?_, ?_, ?_, rfl, ?_, ?_, ?_, rfl, ?_, ?_, ?_, by simp [State.cmdReady], rfl, rfl, rfl⟩ <;>
    exact fun h => by rw [h]; rfl

/-- Settles O22: the fields of `State.reset`, and the encodings of those that TIERCTL, STATUS and `cmd_ready` show. -/
theorem resetRegistersHoldTheirValues : Obligations.ResetRegistersHoldTheirValues :=
  ⟨rfl, rfl, rfl, rfl, rfl, rfl, rfl, rfl⟩

end Sys2Proof.Machine
end

section
/-! What a parse command depends on: at a fixed width PARSEN is the fixed command on digits (43_commands.md R205), and no byte
outside the footprint matters (20_memory.md R55). -/

namespace Sys2Proof.Machine

/-- Two parse commands with the same nonempty footprint do the same where its readable bytes are digits: their names occur in
the value of other bytes alone. -/
theorem exec_eq_of_footprint_eq {i j : Instr} {s : State} (hf : 0 < footprint i) (ha : addressOf i = addressOf j)
    (hn : footprint i = footprint j) (hd : allDigits (bytesAt s (addressOf i) (footprint i)) = true) :
    exec i s = exec j s := by
  rcases readable_or_first s (addressOf i) (footprint i) with hr | ⟨k, hk⟩
  · rw [exec_parse_ok hf hr, exec_parse_ok (hn ▸ hf) (ha ▸ hn ▸ hr), ← ha, ← hn, parseValue_of_digits hd,
      parseValue_of_digits hd]
  · rw [exec_parse_fault hk, exec_parse_fault (ha ▸ hn ▸ hk), ha]

/-- Settles O15: at each of the three widths PARSEN has the fixed command's footprint. -/
theorem parsenAtAFixedWidthIsTheFixedCommand : Obligations.ParsenAtAFixedWidthIsTheFixedCommand :=
  fun _ a => ⟨exec_eq_of_footprint_eq (i := .parseN a 4#5) (j := .parse4 a) (by simp [footprint, lenOk]) rfl rfl,
    exec_eq_of_footprint_eq (i := .parseN a 8#5) (j := .parse8 a) (by simp [footprint, lenOk]) rfl rfl,
    exec_eq_of_footprint_eq (i := .parseN a 16#5) (j := .parse16 a) (by simp [footprint, lenOk]) rfl rfl⟩

/-! ### Another buffer -/

/-- Two buffers answer every read of `a .. a+n-1` alike. -/
def State.AgreesOn (s u : State) (a n : Nat) : Prop := ∀ k, k < n → u.readByte (a + k) = s.readByte (a + k)

theorem State.AgreesOn.readable {s u : State} {a n : Nat} (h : s.AgreesOn u a n) (hr : s.Readable a n) :
    u.Readable a n := fun k hk => by rw [h k hk]; exact hr k hk

theorem State.AgreesOn.firstUnreadable {s u : State} {a n k : Nat} (h : s.AgreesOn u a n)
    (hf : s.FirstUnreadable a n k) : u.FirstUnreadable a n k := by
  obtain ⟨hk, hnone, hbelow⟩ := hf
  exact ⟨hk, by rw [h k hk, hnone], fun j hj => by rw [h j (hj.trans hk)]; exact hbelow j hj⟩

theorem State.AgreesOn.bytesAt_eq {s u : State} {a n : Nat} (h : s.AgreesOn u a n) : bytesAt u a n = bytesAt s a n :=
  List.filterMap_congr fun k hk => h k (List.mem_range.1 hk)

/-- SETTIER looks at TIER_MAX and TIER_LOCK, not at the buffer. -/
theorem exec_setTier_withMem (b : BitVec 2) (s : State) (m : Mem) :
    ∃ t, exec (.setTier b) s = .next t ∧ exec (.setTier b) (s.withMem m) = .next (t.withMem m) := by
  by_cases h : b = 3#2 ∨ s.par.tierMax.rank < b.toNat ∨ s.tierLock = true
  · exact ⟨_, exec_setTier_illegal h, exec_setTier_illegal (s := s.withMem m) h⟩
  · simp only [not_or, Nat.not_lt, Bool.not_eq_true] at h
    obtain ⟨hb, himpl, hunlocked⟩ := h
    obtain ⟨t, rfl⟩ := exists_toBits_of_tierOk (Bool.eq_true_of_not_eq_false (mt (tierOk_eq_false_iff b).1 hb))
    exact ⟨_, exec_setTier_legal himpl hunlocked, exec_setTier_legal (s := s.withMem m) himpl hunlocked⟩

/-- A command that consumes nothing does the same over every buffer. -/
theorem exec_withMem_of_no_footprint {i : Instr} (s : State) (m : Mem) (hf : footprint i = 0) :
    ∃ t, exec i s = .next t ∧ exec i (s.withMem m) = .next (t.withMem m) := by
  cases i with
  | setTier b => exact exec_setTier_withMem b s m
  | parse4 | parse8 | parse16 => simp [footprint] at hf
  | parseN a len =>
    cases hl : lenOk len with
    | false => exact ⟨_, if_pos hl, if_pos hl⟩
    | true =>
      obtain ⟨b, h⟩ := parse_zero (i := .parseN a len) hl rfl hf
      rw [h]
      exact ⟨_, exec_parseN_zero b s, exec_parseN_zero b (s.withMem m)⟩

/-- Settles O18: without a footprint no byte is read; otherwise what the command does is told by the footprint's bytes, or by
the lowest of them that cannot be read. -/
theorem onlyTheFootprintIsRead : Obligations.OnlyTheFootprintIsRead := by
  intro i s m (h : s.AgreesOn (s.withMem m) (addressOf i) (footprint i))
  rcases (footprint i).eq_zero_or_pos with hf | hf
  · exact exec_withMem_of_no_footprint s m hf
  rcases readable_or_first s (addressOf i) (footprint i) with hr | ⟨k, hk⟩
  · refine ⟨_, exec_parse_ok hf hr, ?_⟩
    rw [exec_parse_ok hf (h.readable hr), h.bytesAt_eq]
    rfl
  · exact ⟨_, exec_parse_fault hk, exec_parse_fault (h.firstUnreadable hk)⟩

end Sys2Proof.Machine
end

section
/-! The levels L2 and L3 on any word (40_bittrick_kernel.md R113, R114). -/

namespace Sys2Proof.Machine

/-- Lane `k` of L2 on `w` (R113): the low bytes of 16-bit lanes `2k` and `2k + 1`. -/
def lowBytesValue (w : Word) (k : Nat) : Nat := 100 * wordByte w (4 * k) + wordByte w (4 * k + 2)

theorem lowBytesValue_eq (w : Word) (k : Nat) :
    lowBytesValue w k = 100 * (w.extractLsb' (32 * k) 8).toNat + (w.extractLsb' (32 * k + 16) 8).toNat := by
  rw [lowBytesValue, wordByte, wordByte, show 8 * (4 * k) = 32 * k by omega,
    show 8 * (4 * k + 2) = 32 * k + 16 by omega]

/-- L2 on any word: of each 16-bit lane the high byte is dropped. -/
theorem swarL2_toNat (w : Word) : (swarL2 w).toNat = lowBytesValue w 0 + 2 ^ 32 * lowBytesValue w 1 := by
  have hlt (i : Nat) : wordByte w i + 256 * wordByte w (i + 1) < 65536 := by
    have h0 := wordByte_lt w i
    have h1 := wordByte_lt w (i + 1)
    omega
  have hlow (i : Nat) : (wordByte w i + 256 * wordByte w (i + 1)) % 256 = wordByte w i := by
    rw [Nat.add_mul_mod_self_left, Nat.mod_eq_of_lt (wordByte_lt w i)]
  have hw : w = BitVec.ofNat 64 ((wordByte w 0 + 256 * wordByte w 1) + 65536 * ((wordByte w 2 + 256 * wordByte w 3) +
      65536 * ((wordByte w 4 + 256 * wordByte w 5) + 65536 * (wordByte w 6 + 256 * wordByte w 7)))) :=
    (word_eq_wordBytes w).trans (congrArg _ (by ring))
  have e := swarL2_halves (hlt 0) (hlt 2) (hlt 4) (hlt 6)
  rw [← hw, hlow, hlow, hlow, hlow] at e
  exact e

/-- The two 32-bit lanes of a word, given as a number. -/
theorem word_lane32 {w : Word} {f : Nat → Nat} (h : w.toNat = f 0 + 2 ^ 32 * f 1) (hf : ∀ k, f k < 2 ^ 32) {k : Nat}
    (hk : k < 2) : (w.extractLsb' (32 * k) 32).toNat = f k := by
  have h0 := hf 0
  have h1 := hf 1
  rw [BitVec.extractLsb'_toNat, Nat.shiftRight_eq_div_pow, h]
  match k, hk with
  | 0, _ => omega
  | 1, _ => omega

theorem swarL2_lane (w : Word) {k : Nat} (hk : k < 2) :
    ((swarL2 w).extractLsb' (32 * k) 32).toNat = lowBytesValue w k := by
  refine word_lane32 (swarL2_toNat w) (fun k => ?_) hk
  have h0 := wordByte_lt w (4 * k)
  have h1 := wordByte_lt w (4 * k + 2)
  rw [lowBytesValue]
  omega

/-- Settles O32: the lanes of L2 on any word, and after L1 their bound. -/
theorem swarL2CombinesPairs : Obligations.SwarL2CombinesPairs := by
  refine ⟨fun w k hk => ⟨?_, ?_⟩, rfl⟩
  · rw [swarL2_lane w hk, lowBytesValue_eq]
  · rw [swarL2_swarL1_lane w hk]
    exact quadValue_le w k

/-- L3 on any word: of each 32-bit lane the upper half is dropped (R114). -/
theorem swarL3_toNat (w : Word) :
    (swarL3 w).toNat = 10000 * (w.extractLsb' 0 16).toNat + (w.extractLsb' 32 16).toNat := by
  have hw := w.isLt
  have e := swarL3_words (f0 := w.toNat % 2 ^ 32) (f1 := w.toNat / 2 ^ 32) (by omega) (by omega)
  rw [← eq_ofNat_of_toNat (w := w) (by omega)] at e
  simp only [e, BitVec.extractLsb'_toNat, Nat.shiftRight_eq_div_pow]
  omega

/-- Settles O33: L3 on any word, and its bound from the lanes that L2 leaves after L1. -/
theorem swarL3CombinesHalves : Obligations.SwarL3CombinesHalves := by
  refine ⟨fun w => ⟨swarL3_toNat w, ?_⟩, rfl⟩
  have h0 := quadValue_le w 0
  have h1 := quadValue_le w 1
  rw [swarL3_swarL2_swarL1_toNat]
  omega

end Sys2Proof.Machine
end

section
/-! The operations of the vector kernel one by one (41_vector_kernel.md section 2), and the agreement of the two kernel
families on digits (R156). -/

namespace Sys2Proof.Machine

/-- Byte lane `i` of a register whose lowest lanes are the bytes loaded from `a` is the byte at `a + i`. -/
theorem readByte_of_lane {s : State} {a n i : Nat} (hr : s.Readable a n) (hi : i < n) {xs : List Nat}
    (hn : n + xs.length ≤ 16) : s.readByte (a + i) =
      some (BitVec.ofNat 8 (lane 8 i (ofLanes 8 ((bytesAt s a n).map BitVec.toNat ++ xs)))) := by
  have hl := bytesAt_length hr
  have hi' : i < (bytesAt s a n).length := by omega
  rw [bytesAt_getElem hr hi', lane_ofLanes (by simp [hl]; omega) (by simp [hl]; omega),
    List.getElem_append_left (by simpa using hi'), List.getElem_map, Nat.mod_eq_of_lt (BitVec.isLt _),
    BitVec.ofNat_toNat, BitVec.setWidth_eq]

/-- V.LOAD16 of a readable range (R141). -/
theorem vLoad16_eq {s : State} {a : Nat} (h : s.Readable a 16) :
    vLoad16 s a = .ok (ofLanes 8 ((bytesAt s a 16).map BitVec.toNat ++ [])) := by
  rw [vLoad16, memRead_ok h, List.append_nil, ofLanes, littleEndian_eq_joinLanes]

/-- V.LOAD8DUP of a readable range (R142). -/
theorem vLoad8Dup_eq {s : State} {a : Nat} (h : s.Readable a 8) : vLoad8Dup s a =
    .ok (ofLanes 8 ((bytesAt s a 8).map BitVec.toNat ++ (bytesAt s a 8).map BitVec.toNat)) := by
  rw [vLoad8Dup, memRead_ok h]
  exact congrArg Except.ok (dup_eq_ofLanes (bytesAt_length h))

/-- A multiply-add in one lane whose operands lie in the stated range: the value, and the range it lies in. -/
theorem vMadd_lane_le {op : LaneOp} {w count mul top j : Nat} {v : VecReg} (hw : 2 * w * count ≤ 128)
    (hx : ∀ i, i < 2 * count → lane w i v ≤ top) (hb : mul * top + top < 2 ^ (2 * w)) (hj : j < count) :
    lane (2 * w) j (vMadd op w count mul top v) = mul * lane w (2 * j) v + 1 * lane w (2 * j + 1) v ∧
      lane (2 * w) j (vMadd op w count mul top v) ≤ mul * top + top := by
  have h0 := hx (2 * j) (by omega)
  have h1 := hx (2 * j + 1) (by omega)
  have e := vMadd_lane (op := op) hw hj h0 h1 hb
  have hmul := Nat.mul_le_mul_left mul h0
  exact ⟨e, by omega⟩

/-- V.FOLD in its stated range does not wrap (R148). -/
theorem vFold_toNat {v : VecReg} (h0 : lane 32 0 v ≤ 99999999) (h1 : lane 32 1 v ≤ 99999999) :
    (vFold v).toNat = lane 32 0 v * 100000000 + lane 32 1 v := by
  rw [vFold_in_range h0 h1, scale, BitVec.toNat_add, BitVec.toNat_mul]
  simp only [Scale.const, BitVec.toNat_ofNat]
  omega

/-- Settles O34: the loads by the bytes they put into the lanes, each lane operation by its law in one lane. -/
theorem vectorLaneOperations : Obligations.VectorLaneOperations := by
  refine ⟨fun s a h => ⟨_, vLoad16_eq h, fun i hi => readByte_of_lane h hi (by decide)⟩,
    fun s a k h => by rw [vLoad16, memRead_error h],
    fun s a h => ⟨_, vLoad8Dup_eq h, fun i hi => ⟨readByte_of_lane h hi ?_, lane_ofLanes_append_self ?_ hi⟩⟩,
    fun s a k h => by rw [vLoad8Dup, memRead_error h],
    fun v i hi => vBias_lane v hi,
    fun v h j hj => vMadd_lane_le (w := 8) (count := 8) (by decide) h (by decide) hj,
    fun v h k hk => vMadd_lane_le (w := 16) (count := 4) (by decide) h (by decide) hk,
    fun v h k hk => vPack_lane hk (h k hk),
    fun v h m hm => vMadd_lane_le (w := 16) (count := 4) (by decide) h (by decide) hm,
    fun v h0 h1 => ⟨vFold_toNat h0 h1, by rw [vFold_toNat h0 h1]; omega⟩,
    fun s a t v h => by rw [vk16, h]; rfl,
    fun s a t v h => by rw [vk8, h]; rfl⟩
  · rw [List.length_map, bytesAt_length h]
  · rw [List.length_map, bytesAt_length h]

/-- Settles O35: on readable digits both kernels of a width hand over their `decimalValue`. -/
theorem kernelFamiliesAgreeOnDigits : Obligations.KernelFamiliesAgreeOnDigits :=
  fun _ _ t u => ⟨vk8_ok.kernelValue_agree bt8_ok t u, vk16_ok.kernelValue_agree bt16_ok t u⟩

end Sys2Proof.Machine
end

section
/-! The string of 13 bytes (42_composer.md R178, R179): the row of the table, read as a number. -/

namespace Sys2Proof.Machine

/-- A kernel hands over some value for a readable footprint, digits or not. -/
theorem KernelOk.exists_kernelValue {n : Nat} {kernel : State → Nat → Transients → Except Nat (Word × Transients)}
    (h : KernelOk n kernel) {s : State} {a : Nat} (t : Transients) (hr : s.Readable a n) :
    ∃ v, kernelValue (kernel s a t) = .ok v := by
  obtain ⟨v, t', e, -⟩ := h s a t hr
  exact ⟨v, by rw [e]; rfl⟩

/-- The row of R179 for 13 bytes, from the values of its three chunks. -/
theorem foldChunks_thirteen {s : State} {a : Nat} {t : Transients} {v8 v4 : Word} {b : Byte}
    (h8 : kernelValue (kernel8 s a t) = .ok v8) (h4 : kernelValue (bt4 s (a + 8) t) = .ok v4)
    (hb : s.readByte (a + 12) = some b) : foldChunks s a t 0#64 (decomposition 13) =
      .ok ((v8 * 10000#64 + v4) * 10#64 + (b - 0x30#8).setWidth 64) := by
  simp [decomposition, foldChunks, Chunk.fold, h8, h4, hb, Except.map]

/-- Settles O37: the accumulator by the row of the table, the cursor by `compose_ok`. -/
theorem thirteenBytesAreEightFourAndOne : Obligations.ThirteenBytesAreEightFourAndOne := by
  intro s a t hr
  obtain ⟨v8, h8⟩ := kernel8_ok.exists_kernelValue t (hr.mono (by decide))
  obtain ⟨v4, h4⟩ := bt4_ok.exists_kernelValue (a := a + 8) t (hr.shift (by decide))
  obtain ⟨b, hb⟩ := Option.isSome_iff_exists.1 (hr 12 (by decide))
  obtain ⟨t', e, hp⟩ := compose_ok (len := 13#5) t hr
  have hacc : composerValue (compose s a 13#5 t) = foldChunks s a t 0#64 (decomposition 13) :=
    everyLengthDecomposesAsItsRow s a 13#5 t (by decide) (by decide)
  rw [e, foldChunks_thirteen h8 h4 hb] at hacc
  exact ⟨v8, v4, b, t', h8, h4, hb, e, Except.ok.inj hacc, hp.pos, BitVec.eq_of_toNat_eq hp.rem⟩

end Sys2Proof.Machine
end
